-- ==== Sys2Proof/Word.lean ====
section
/-!
DEFINITION. The two machine words of the CHIP-8 core and the index of a general register.
All values are unsigned and no immediate is sign-extended (00_scope.md R7).
-/

namespace Sys2Proof

/-- One byte: a general register, a timer, a memory cell (10_state.md R20, R26; 20_memory.md R60). -/
abbrev Byte := BitVec 8

/-- One 16-bit word: an instruction word, `PC`, `I`, a stack entry (10_state.md R22, R23, R25). -/
abbrev Word := BitVec 16

/-- The index of one of the sixteen registers `V0` .. `VF`; every 4-bit `x` or `y` field is one
(10_state.md R20). -/
abbrev Reg := Fin 16

/-- `VF`, the register that doubles as the flag (10_state.md R21). -/
abbrev flagReg : Reg := 15

end Sys2Proof
end

