-- ==== Sys2Proof/Machine/Flags.lean ====
section
/-!
DEFINITION. The values the flag-writing instructions give VF, each 0 or 1 (10_state.md R21), computed from the
exact integers (42_alu.md R172).
-/

namespace Sys2Proof.Machine

/-- A flag as the byte written to VF. -/
def flagByte (b : Bool) : Byte := if b then 1 else 0

/-- Carry of `a + b`: the exact sum passes 255 (R172). -/
def carry (a b : Byte) : Byte := flagByte (255 < a.toNat + b.toNat)

/-- NOT borrow of `a - b`: the minuend is not below the subtrahend, so 1 at equality (R172; decision D9,
log entry 8). -/
def notBorrow (a b : Byte) : Byte := flagByte (b.toNat ≤ a.toNat)

/-- The bit a right shift by one shifts out (R168). -/
def lowBitOut (a : Byte) : Byte := flagByte (a.getLsbD 0)

/-- The bit a left shift by one shifts out (R170). -/
def highBitOut (a : Byte) : Byte := flagByte (a.getLsbD 7)

end Sys2Proof.Machine
end

