-- ==== Sys2Proof/Syntax.lean ====
section
/-!
DEFINITION. The instructions: one constructor per row of spec/opcode_table.json, in the table's order.
`nnn` is a 12-bit address, `kk` a byte, `x` and `y` register indices, `n` a count of sprite rows
(30_encoding.md R91, R96, R102).
-/

namespace Sys2Proof

inductive Instr where
  /-- `00E0` CLS: clear the display (R210). -/
  | cls
  /-- `00EE` RET: return from a subroutine (R140). -/
  | ret
  /-- `1nnn` JP nnn: jump (R141). -/
  | jp (nnn : BitVec 12)
  /-- `2nnn` CALL nnn: call a subroutine (R142). -/
  | call (nnn : BitVec 12)
  /-- `3xkk` SE Vx, kk: skip if equal to the immediate (R143). -/
  | seImm (x : Reg) (kk : Byte)
  /-- `4xkk` SNE Vx, kk: skip if not equal to the immediate (R144). -/
  | sneImm (x : Reg) (kk : Byte)
  /-- `5xy0` SE Vx, Vy: skip if the registers are equal (R145). -/
  | seReg (x y : Reg)
  /-- `6xkk` LD Vx, kk: load the immediate (R160). -/
  | ldImm (x : Reg) (kk : Byte)
  /-- `7xkk` ADD Vx, kk: add the immediate (R161). -/
  | addImm (x : Reg) (kk : Byte)
  /-- `8xy0` LD Vx, Vy: copy a register (R162). -/
  | ldReg (x y : Reg)
  /-- `8xy1` OR Vx, Vy (R163). -/
  | orReg (x y : Reg)
  /-- `8xy2` AND Vx, Vy (R164). -/
  | andReg (x y : Reg)
  /-- `8xy3` XOR Vx, Vy (R165). -/
  | xorReg (x y : Reg)
  /-- `8xy4` ADD Vx, Vy: add with carry out (R166). -/
  | addReg (x y : Reg)
  /-- `8xy5` SUB Vx, Vy: subtract (R167). -/
  | subReg (x y : Reg)
  /-- `8xy6` SHR Vx, Vy: shift right by one (R168). -/
  | shr (x y : Reg)
  /-- `8xy7` SUBN Vx, Vy: reverse subtract (R169). -/
  | subn (x y : Reg)
  /-- `8xyE` SHL Vx, Vy: shift left by one (R170). -/
  | shl (x y : Reg)
  /-- `9xy0` SNE Vx, Vy: skip if the registers differ (R146). -/
  | sneReg (x y : Reg)
  /-- `Annn` LD I, nnn: load the index register (R190). -/
  | ldI (nnn : BitVec 12)
  /-- `Bnnn` JP V0, nnn: jump with offset (R147). -/
  | jpV0 (nnn : BitVec 12)
  /-- `Cxkk` RND Vx, kk: masked random byte (R171). -/
  | rnd (x : Reg) (kk : Byte)
  /-- `Dxyn` DRW Vx, Vy, n: draw a sprite of `n` rows (R211). -/
  | drw (x y : Reg) (n : Nat)
  /-- `Ex9E` SKP Vx: skip if the key is pressed (R230). -/
  | skp (x : Reg)
  /-- `ExA1` SKNP Vx: skip if the key is not pressed (R231). -/
  | sknp (x : Reg)
  /-- `Fx07` LD Vx, DT: read the delay timer (R232). -/
  | ldVxDT (x : Reg)
  /-- `Fx0A` LD Vx, K: wait for a key (R233). -/
  | ldVxK (x : Reg)
  /-- `Fx15` LD DT, Vx: set the delay timer (R235). -/
  | ldDTVx (x : Reg)
  /-- `Fx18` LD ST, Vx: set the sound timer (R236). -/
  | ldSTVx (x : Reg)
  /-- `Fx1E` ADD I, Vx: add a register to the index register (R191). -/
  | addI (x : Reg)
  /-- `Fx29` LD F, Vx: point the index register at a font glyph (R192). -/
  | ldF (x : Reg)
  /-- `Fx33` LD B, Vx: store binary-coded decimal (R193). -/
  | ldB (x : Reg)
  /-- `Fx55` LD [I], Vx: store the registers `V0` .. `Vx` (R194). -/
  | storeRegs (x : Reg)
  /-- `Fx65` LD Vx, [I]: load the registers `V0` .. `Vx` (R195). -/
  | loadRegs (x : Reg)
  deriving DecidableEq, Repr

end Sys2Proof
end

