-- ==== Sys2Proof/WellFormed.lean ====
section
/-!
DEFINITION. Which terms of `Instr` an instruction word can express.
The types of the other operands already are their fields' ranges (30_encoding.md R91): a register index
is below 16, an address has 12 bits, an immediate has 8. Only a sprite height can be too large.
-/

namespace Sys2Proof

/-- `n` is the 4-bit field `w[3:0]`, a count 0..15 (R91, R102). A height of 0 can be written and decodes;
it is fatal when executed (R97, R215). -/
def spriteHeightFits (n : Nat) : Bool := n ≤ 15

/-- The instruction can be written as an instruction word. -/
def Instr.wf : Instr → Bool
  | .drw _ _ n => spriteHeightFits n
  | .cls | .ret | .jp _ | .call _ | .seImm _ _ | .sneImm _ _ | .seReg _ _ | .ldImm _ _ | .addImm _ _
  | .ldReg _ _ | .orReg _ _ | .andReg _ _ | .xorReg _ _ | .addReg _ _ | .subReg _ _ | .shr _ _
  | .subn _ _ | .shl _ _ | .sneReg _ _ | .ldI _ | .jpV0 _ | .rnd _ _ | .skp _ | .sknp _ | .ldVxDT _
  | .ldVxK _ | .ldDTVx _ | .ldSTVx _ | .addI _ | .ldF _ | .ldB _ | .storeRegs _ | .loadRegs _ => true

end Sys2Proof
end

