-- ==== Sys2Proof/Decode.lean ====
section
/-!
DEFINITION. From the bytes of an instruction to the instruction, and back.
Every instruction is 16 bits (30_encoding.md R90). A word is classified into one of three shapes by its
high nibble (R93), then matched within the shape (R96); a word that matches no row is rejected (R97).
-/

namespace Sys2Proof

/-! ### Fields (R91) -/

/-- `op = w[15:12]`, the opcode family. -/
def opField (w : Word) : BitVec 4 := w.extractLsb' 12 4

/-- `nnn = w[11:0]`, the address immediate. -/
def nnnField (w : Word) : BitVec 12 := w.extractLsb' 0 12

/-- `x = w[11:8]`, the first register index. -/
def xField (w : Word) : Reg := (w.extractLsb' 8 4).toFin

/-- `y = w[7:4]`, the second register index. -/
def yField (w : Word) : Reg := (w.extractLsb' 4 4).toFin

/-- `kk = w[7:0]`, the byte immediate, or the second-level opcode of families E and F. -/
def kkField (w : Word) : Byte := w.extractLsb' 0 8

/-- `op2 = w[3:0]`, the second-level opcode of families 5, 8, 9, and the sprite height `n` of family D. -/
def op2Field (w : Word) : BitVec 4 := w.extractLsb' 0 4

/-! ### Decoding -/

/-- The three shapes of an instruction word (R93). -/
inductive Shape where
  | imm (op : BitVec 4) (nnn : BitVec 12)
  | regImm (op : BitVec 4) (x : Reg) (kk : Byte)
  | regReg (op : BitVec 4) (x y : Reg) (op2 : BitVec 4)
  deriving DecidableEq, Repr

/-- Why a word is no instruction: causes 1 and 2 of 60_exceptions.md R251. -/
inductive DecodeError where
  /-- The high nibble is in none of the three family lists (R95). -/
  | decodeFailure
  /-- The word matches no row of the opcode map (R97). -/
  | unrecognizedInstruction
  deriving DecidableEq, Repr

/-- The families of shape `Imm` (R93). -/
def immFamilies : List (BitVec 4) := [0x0, 0x1, 0x2, 0xA, 0xB]

/-- The families of shape `RegImm` (R93). -/
def regImmFamilies : List (BitVec 4) := [0x3, 0x4, 0x6, 0x7, 0xC, 0xE, 0xF]

/-- The families of shape `RegReg` (R93). -/
def regRegFamilies : List (BitVec 4) := [0x5, 0x8, 0x9, 0xD]

/-- The shape of a word, by its high nibble; `none` is the decode failure that R95 shows unreachable. -/
def classify (w : Word) : Option Shape :=
  let op := opField w
  if op ∈ immFamilies then some (.imm op (nnnField w))
  else if op ∈ regImmFamilies then some (.regImm op (xField w) (kkField w))
  else if op ∈ regRegFamilies then some (.regReg op (xField w) (yField w) (op2Field w))
  else none

/-- The rows of the opcode map of shape `Imm` (R96). Family 0 is selected by the whole of `nnn`. -/
def matchImm (op : BitVec 4) (nnn : BitVec 12) : Option Instr :=
  if op = 0x0 then
    if nnn = 0x0E0 then some .cls
    else if nnn = 0x0EE then some .ret
    else none
  else if op = 0x1 then some (.jp nnn)
  else if op = 0x2 then some (.call nnn)
  else if op = 0xA then some (.ldI nnn)
  else if op = 0xB then some (.jpV0 nnn)
  else none

/-- The rows of family E, selected by `kk` (R96). -/
def matchFamilyE (x : Reg) (kk : Byte) : Option Instr :=
  if kk = 0x9E then some (.skp x)
  else if kk = 0xA1 then some (.sknp x)
  else none

/-- The rows of family F, selected by `kk` (R96). -/
def matchFamilyF (x : Reg) (kk : Byte) : Option Instr :=
  if kk = 0x07 then some (.ldVxDT x)
  else if kk = 0x0A then some (.ldVxK x)
  else if kk = 0x15 then some (.ldDTVx x)
  else if kk = 0x18 then some (.ldSTVx x)
  else if kk = 0x1E then some (.addI x)
  else if kk = 0x29 then some (.ldF x)
  else if kk = 0x33 then some (.ldB x)
  else if kk = 0x55 then some (.storeRegs x)
  else if kk = 0x65 then some (.loadRegs x)
  else none

/-- The rows of the opcode map of shape `RegImm` (R96). -/
def matchRegImm (op : BitVec 4) (x : Reg) (kk : Byte) : Option Instr :=
  if op = 0x3 then some (.seImm x kk)
  else if op = 0x4 then some (.sneImm x kk)
  else if op = 0x6 then some (.ldImm x kk)
  else if op = 0x7 then some (.addImm x kk)
  else if op = 0xC then some (.rnd x kk)
  else if op = 0xE then matchFamilyE x kk
  else if op = 0xF then matchFamilyF x kk
  else none

/-- The rows of family 8, selected by `op2` (R96). -/
def matchFamily8 (x y : Reg) (op2 : BitVec 4) : Option Instr :=
  if op2 = 0x0 then some (.ldReg x y)
  else if op2 = 0x1 then some (.orReg x y)
  else if op2 = 0x2 then some (.andReg x y)
  else if op2 = 0x3 then some (.xorReg x y)
  else if op2 = 0x4 then some (.addReg x y)
  else if op2 = 0x5 then some (.subReg x y)
  else if op2 = 0x6 then some (.shr x y)
  else if op2 = 0x7 then some (.subn x y)
  else if op2 = 0xE then some (.shl x y)
  else none

/-- The rows of the opcode map of shape `RegReg` (R96). In family D the low nibble is the operand `n`. -/
def matchRegReg (op : BitVec 4) (x y : Reg) (op2 : BitVec 4) : Option Instr :=
  if op = 0x5 then (if op2 = 0x0 then some (.seReg x y) else none)
  else if op = 0x8 then matchFamily8 x y op2
  else if op = 0x9 then (if op2 = 0x0 then some (.sneReg x y) else none)
  else if op = 0xD then some (.drw x y op2.toNat)
  else none

/-- The row a classified word matches, if any (R96). -/
def matchShape : Shape → Option Instr
  | .imm op nnn => matchImm op nnn
  | .regImm op x kk => matchRegImm op x kk
  | .regReg op x y op2 => matchRegReg op x y op2

/-- The instruction of the row a word matches; a word that matches none is rejected (R97). -/
def recognized : Option Instr → Except DecodeError Instr
  | none => .error .unrecognizedInstruction
  | some i => .ok i

/-- The instruction a word is, or why it is none (40_execution_cycle.md R123). -/
def decode (w : Word) : Except DecodeError Instr :=
  match classify w with
  | none => .error .decodeFailure
  | some sh => recognized (matchShape sh)

/-- The word of the two bytes at an address and the next: the byte at the lower address is the high byte.
PRESUMED, log entry 1 (20_memory.md R62, decision D1). -/
def wordOfBytes (first second : Byte) : Word := first ++ second

/-- The two bytes of a word as memory holds them, lowest address first; the inverse of `wordOfBytes`. -/
def bytesOfWord (w : Word) : List Byte := [w.extractLsb' 8 8, w.extractLsb' 0 8]

/-- The decoder on the bytes of an instruction, as they lie in memory. -/
def decodeBytes (first second : Byte) : Except DecodeError Instr := decode (wordOfBytes first second)

/-! ### Encoding -/

/-- A register index as the nibble of a word. -/
def regNibble (x : Reg) : BitVec 4 := BitVec.ofFin x

/-- Layout of shape `Imm`: `op[15:12] nnn[11:0]` (R93). -/
def immWord (op : BitVec 4) (nnn : BitVec 12) : Word := op ++ nnn

/-- Layout of shape `RegImm`: `op[15:12] x[11:8] kk[7:0]` (R93). -/
def regImmWord (op : BitVec 4) (x : Reg) (kk : Byte) : Word := op ++ regNibble x ++ kk

/-- Layout of shape `RegReg`: `op[15:12] x[11:8] y[7:4] op2[3:0]` (R93). -/
def regRegWord (op : BitVec 4) (x y : Reg) (op2 : BitVec 4) : Word :=
  op ++ regNibble x ++ regNibble y ++ op2

/-- The word of an instruction, from the opcode map (R96). -/
def encode : Instr → Word
  | .cls => 0x00E0
  | .ret => 0x00EE
  | .jp nnn => immWord 0x1 nnn
  | .call nnn => immWord 0x2 nnn
  | .seImm x kk => regImmWord 0x3 x kk
  | .sneImm x kk => regImmWord 0x4 x kk
  | .seReg x y => regRegWord 0x5 x y 0x0
  | .ldImm x kk => regImmWord 0x6 x kk
  | .addImm x kk => regImmWord 0x7 x kk
  | .ldReg x y => regRegWord 0x8 x y 0x0
  | .orReg x y => regRegWord 0x8 x y 0x1
  | .andReg x y => regRegWord 0x8 x y 0x2
  | .xorReg x y => regRegWord 0x8 x y 0x3
  | .addReg x y => regRegWord 0x8 x y 0x4
  | .subReg x y => regRegWord 0x8 x y 0x5
  | .shr x y => regRegWord 0x8 x y 0x6
  | .subn x y => regRegWord 0x8 x y 0x7
  | .shl x y => regRegWord 0x8 x y 0xE
  | .sneReg x y => regRegWord 0x9 x y 0x0
  | .ldI nnn => immWord 0xA nnn
  | .jpV0 nnn => immWord 0xB nnn
  | .rnd x kk => regImmWord 0xC x kk
  | .drw x y n => regRegWord 0xD x y (BitVec.ofNat 4 n)
  | .skp x => regImmWord 0xE x 0x9E
  | .sknp x => regImmWord 0xE x 0xA1
  | .ldVxDT x => regImmWord 0xF x 0x07
  | .ldVxK x => regImmWord 0xF x 0x0A
  | .ldDTVx x => regImmWord 0xF x 0x15
  | .ldSTVx x => regImmWord 0xF x 0x18
  | .addI x => regImmWord 0xF x 0x1E
  | .ldF x => regImmWord 0xF x 0x29
  | .ldB x => regImmWord 0xF x 0x33
  | .storeRegs x => regImmWord 0xF x 0x55
  | .loadRegs x => regImmWord 0xF x 0x65

/-! ### The opcode map as the spec tabulates it -/

/-- One row of the opcode map: a word `w` matches when `w & mask = pattern` (R96). -/
structure OpcodeRow where
  mask : Word
  pattern : Word
  deriving DecidableEq, Repr

/-- The word matches the row (R96). -/
def OpcodeRow.admits (row : OpcodeRow) (w : Word) : Bool := w &&& row.mask == row.pattern

/-- The opcode map, family 0 to family 7, in the order of R96. -/
def opcodeRowsLow : List OpcodeRow :=
  [⟨0xFFFF, 0x00E0⟩, ⟨0xFFFF, 0x00EE⟩, ⟨0xF000, 0x1000⟩, ⟨0xF000, 0x2000⟩, ⟨0xF000, 0x3000⟩,
   ⟨0xF000, 0x4000⟩, ⟨0xF00F, 0x5000⟩, ⟨0xF000, 0x6000⟩, ⟨0xF000, 0x7000⟩]

/-- The opcode map, families 8 and 9. -/
def opcodeRowsAlu : List OpcodeRow :=
  [⟨0xF00F, 0x8000⟩, ⟨0xF00F, 0x8001⟩, ⟨0xF00F, 0x8002⟩, ⟨0xF00F, 0x8003⟩, ⟨0xF00F, 0x8004⟩,
   ⟨0xF00F, 0x8005⟩, ⟨0xF00F, 0x8006⟩, ⟨0xF00F, 0x8007⟩, ⟨0xF00F, 0x800E⟩, ⟨0xF00F, 0x9000⟩]

/-- The opcode map, families A to F. -/
def opcodeRowsHigh : List OpcodeRow :=
  [⟨0xF000, 0xA000⟩, ⟨0xF000, 0xB000⟩, ⟨0xF000, 0xC000⟩, ⟨0xF000, 0xD000⟩, ⟨0xF0FF, 0xE09E⟩,
   ⟨0xF0FF, 0xE0A1⟩, ⟨0xF0FF, 0xF007⟩, ⟨0xF0FF, 0xF00A⟩, ⟨0xF0FF, 0xF015⟩, ⟨0xF0FF, 0xF018⟩,
   ⟨0xF0FF, 0xF01E⟩, ⟨0xF0FF, 0xF029⟩, ⟨0xF0FF, 0xF033⟩, ⟨0xF0FF, 0xF055⟩, ⟨0xF0FF, 0xF065⟩]

/-- The 34 rows of the opcode map (R96). -/
def opcodeMap : List OpcodeRow := opcodeRowsLow ++ opcodeRowsAlu ++ opcodeRowsHigh

/-- The instruction the decoder reads from the opcode-table word `w`; the word is laid out as memory holds
it and given to the decoder. Every instruction has 16 bits (R90), whatever width the table gives a row. -/
def decodeTableWord (nbits w : Nat) : Option Instr :=
  match bytesOfWord (BitVec.ofNat 16 (w % 2 ^ nbits)) with
  | [first, second] => (decodeBytes first second).toOption
  | _ => none

end Sys2Proof
end

