-- ==== Sys2Proof/Config.lean ====
section
/-!
DEFINITION. The sizes the spec fixes (00_scope.md R5) and the values it leaves free.
The free values are opaque constants: no proof can learn a value of one.
`LEGACY` and `FONT`, the two constructor parameters, are fields of `State` instead, so that a statement
about every state is a statement about every value of them.
-/

namespace Sys2Proof.Config

/-- `MEM_SIZE`: memory has 4096 bytes, at addresses 0x000 to 0xFFF (R5, R60). -/
def memSize : Nat := 0x1000

/-- `PROGRAM_BASE`: the load address and the reset value of `PC` (R5, R302). -/
def programBase : Nat := 0x200

/-- `MAX_PROGRAM`: the longest program `Load` accepts, in bytes (R5, R272). -/
def maxProgram : Nat := 0xE00

/-- `STACK_DEPTH`: the number of call-stack entries (R5, R25). -/
def stackDepth : Nat := 16

/-- FREE VALUE, DESIGN CHOICE, log entry 15. The byte the random source gives to the draw with this
number; the spec gives `random_byte()` no law at all (42_alu.md R171, decision D15). -/
opaque randomByte : Nat → Byte

/-- FREE VALUE, DESIGN CHOICE, log entry 10. Which of several pressed keys `Fx0A` reports: the chosen
position in the list of pressed keys, taken modulo its length. The spec leaves the choice function
`KEY_PICK` open (45_keypad_timers.md R234, decision D10). -/
opaque keyChoice : List (Fin 16) → Nat

end Sys2Proof.Config
end

