-- ==== Sys2Proof/Machine/Font.lean ====
section
/-!
DEFINITION. The value `State.reset` gives to the parameter `FONT`: the conventional hexadecimal font.
PRESUMED, log entry 2: the source gives the place and the layout of the table and no byte of it; the bytes
are the spec's default, from general knowledge (20_memory.md R61, decision D3).
-/

namespace Sys2Proof.Machine

/-- The glyphs of the digits 0 to 7, five bytes each (R61). -/
def defaultFontLow : Vector Byte 40 :=
  #v[0xF0, 0x90, 0x90, 0x90, 0xF0,
     0x20, 0x60, 0x20, 0x20, 0x70,
     0xF0, 0x10, 0xF0, 0x80, 0xF0,
     0xF0, 0x10, 0xF0, 0x10, 0xF0,
     0x90, 0x90, 0xF0, 0x10, 0x10,
     0xF0, 0x80, 0xF0, 0x10, 0xF0,
     0xF0, 0x80, 0xF0, 0x90, 0xF0,
     0xF0, 0x10, 0x20, 0x40, 0x40]

/-- The glyphs of the digits 8 to F, five bytes each (R61). -/
def defaultFontHigh : Vector Byte 40 :=
  #v[0xF0, 0x90, 0xF0, 0x90, 0xF0,
     0xF0, 0x90, 0xF0, 0x10, 0xF0,
     0xF0, 0x90, 0xF0, 0x90, 0x90,
     0xE0, 0x90, 0xE0, 0x90, 0xE0,
     0xF0, 0x80, 0x80, 0x80, 0xF0,
     0xE0, 0x90, 0x90, 0x90, 0xE0,
     0xF0, 0x80, 0xF0, 0x80, 0xF0,
     0xF0, 0x80, 0xF0, 0x80, 0x80]

/-- The 80 bytes of the default font; the glyph of digit `d` is at `5·d` (R61). -/
def defaultFont : Vector Byte 80 := defaultFontLow ++ defaultFontHigh

end Sys2Proof.Machine
end

