-- ==== Sys2Proof/Machine/State.lean ====
section
/-!
DEFINITION. Everything the spec gives the machine (10_state.md R20 to R36), as plain data, and its value
after reset (R38). Three fields at the end are the model's own: the events still to come from outside the
core, the events the core has emitted, and the number of random bytes drawn.
-/

namespace Sys2Proof.Machine

/-- The cells of memory that do not hold their reset contents, in canonical form (`Memory.wf`). -/
abbrev Memory := List Host.Cell

/-- 32 rows of 64 one-bit pixels, indexed row first (R29). -/
abbrev Display := Vector (Vector Bool 64) 32

/-- `RUN` (R32). -/
inductive RunState where
  /-- No instruction step and no frame tick happens; left by the host's `run()`. -/
  | stopped
  /-- Instruction steps and frame ticks happen. -/
  | running
  /-- After a fatal condition, for good. -/
  | faulted
  deriving DecidableEq, Repr

/-- The fatal conditions (60_exceptions.md R251). -/
inductive Cause where
  /-- The high nibble of the word is in no family list; unreachable (R95). -/
  | decodeFailure
  /-- The word matches no row of the opcode map (R97). -/
  | unrecognizedInstruction
  /-- `2nnn` with sixteen addresses on the call stack (R142). -/
  | stackOverflow
  /-- `00EE` with an empty call stack (R140). -/
  | stackUnderflow
  /-- `Ex9E` or `ExA1` with `Vx` above 0xF (R230, R231). -/
  | keyIndexOutOfRange
  /-- `Fx29` with `Vx` above 0xF (R192). -/
  | digitOutOfRange
  /-- `Dxyn` with `n = 0` (R215). -/
  | badSpriteHeight
  /-- An access to an address above 0xFFF (20_memory.md R66). -/
  | memoryOutOfBounds
  /-- `Load` of more than 0xE00 bytes (R272). -/
  | programTooLarge
  deriving DecidableEq, Repr

/-- `FAULT` when it is not `None`: the cause, the instruction word being executed and the address the
instruction was fetched from, which the spec calls `at` (R34, R252). The layout is the spec's own choice,
decision D7 (log entry 6). -/
structure FaultRecord where
  cause : Cause
  word : Option Word
  addr : Option Word
  deriving DecidableEq, Repr

/-- What the host may do to the core (R270, R271, R272). -/
inductive HostOp where
  /-- Set the sixteen key levels. -/
  | setKeys (keys : Vector Bool 16)
  /-- Load a program at 0x200. -/
  | load (bytes : List Byte)
  /-- Request the run state `Running`. -/
  | run
  /-- Request a stop at the next frame boundary. -/
  | stop
  deriving DecidableEq, Repr

/-- An event whose time the core does not decide (00_scope.md R11, 60_exceptions.md R277). -/
inductive Event where
  /-- The instruction cadence: one instruction step, where one may happen (R120). -/
  | instruction
  /-- The 60 Hz frame tick (R266). -/
  | frameTick
  /-- A step of the host. -/
  | host (op : HostOp)
  deriving DecidableEq, Repr

/-- An event the core emits to the host (R268, R269). -/
inductive Output where
  /-- The tone event. -/
  | tone
  /-- The render event, with the snapshot it carries. -/
  | render (grid : Display)
  deriving DecidableEq, Repr

/-- The state of the machine. -/
structure State where
  /-- The general registers `V0` .. `VF` (R20). -/
  v : Vector Byte 16
  /-- The index register (R22). -/
  i : Word
  /-- The program counter (R23). -/
  pc : Word
  /-- The stack depth, 0 to 16 (R24). -/
  sp : Fin 17
  /-- The call stack (R25). -/
  stack : Vector Word 16
  /-- The delay timer (R26). -/
  dt : Byte
  /-- The sound timer (R27). -/
  st : Byte
  /-- The memory (R28). -/
  mem : Memory
  /-- The display (R29). -/
  display : Display
  /-- The key levels, true while pressed (R30). -/
  keys : Vector Bool 16
  /-- The parameter `LEGACY` (R31). -/
  legacy : Bool
  /-- The parameter `FONT`: what 0x000 .. 0x04F hold after reset (20_memory.md R61). -/
  font : Vector Byte 80
  /-- The run state (R32). -/
  run : RunState
  /-- The key-wait state: the register an `Fx0A` still has to write (R33). -/
  wait : Option Reg
  /-- The fault record (R34). -/
  fault : Option FaultRecord
  /-- The stop request (R35). -/
  stopReq : Bool
  /-- The model's own, log entry 14: the events to come, the next first. -/
  agenda : List Event
  /-- The model's own, log entry 24: the events emitted since construction, the oldest first. -/
  out : List Output
  /-- The model's own, log entry 15: how many random bytes have been drawn. -/
  draws : Nat
  deriving DecidableEq, Repr

/-- A newly constructed machine (R38, R300). `LEGACY` and `FONT` are the constructor's arguments; `PC`, the
place of the font and `RUN` are the source's; the zeros and falses are decision D4 (log entry 3), and
`STOP_REQ` decision D18. -/
def State.construct (legacy : Bool) (font : Vector Byte 80) : State where
  v := Vector.replicate 16 0
  i := 0
  pc := BitVec.ofNat 16 Config.programBase
  sp := 0
  stack := Vector.replicate 16 0
  dt := 0
  st := 0
  mem := []
  display := Vector.replicate 32 (Vector.replicate 64 false)
  keys := Vector.replicate 16 false
  legacy := legacy
  font := font
  run := .stopped
  wait := none
  fault := none
  stopReq := false
  agenda := []
  out := []
  draws := 0

/-- The machine right after reset. `LEGACY` false is DESIGN CHOICE, log entry 20 (decision D20 gives no
default); the font is PRESUMED, log entry 2. -/
def State.reset : State := State.construct false defaultFont

/-- Why a step stops the machine. -/
inductive Fault where
  /-- Raised by `step` in a machine that is already `Faulted`, and by nothing else: no agent can take a step
  there (R32, R263). It carries the latched fault record. The fatal condition itself is not this fault: the
  step that raises it answers the next state, with the record latched. Safe: the machine has halted. -/
  | halted (record : Option FaultRecord)
  deriving DecidableEq, Repr

/-- Why a step has no meaning. -/
inductive Refusal where
  /-- An instruction whose meaning has not been written; raised by no arm of `exec` in this model. Safe. -/
  | notModelled (mnemonic : String)
  /-- Raised by the host's `load` while the machine is `Running`: the spec says the model gives it no meaning
  (R272, decision D17). Safe. -/
  | loadWhileRunning
  deriving DecidableEq, Repr

/-- What an instruction or a step answers. -/
abbrev Result := Host.Outcome State Fault Refusal

end Sys2Proof.Machine
end

