-- ==== Sys2Proof/Machine/Ops.lean ====
section
/-!
DEFINITION. The operations the instructions share: on registers, on the program counter, on the call stack,
on memory, on the display and on the keys, and the raising of a fatal condition, which is this machine's only
exception and from which there is no return (60_exceptions.md R262, R263).
-/

namespace Sys2Proof.Machine

/-! ### Registers -/

/-- `V[x]` (00_scope.md R8). -/
def State.reg (s : State) (x : Reg) : Byte := s.v[x]

/-- `V[x] <- b` (R8). No register is hard-wired (10_state.md R20). -/
def State.setReg (s : State) (x : Reg) (b : Byte) : State := { s with v := s.v.set x b }

/-- The flag-writing instructions read their operands, then write `Vx`, then write VF last, so VF ends
holding the flag when `x = 0xF` (42_alu.md R173; decision D8, log entry 7). -/
def State.setRegThenFlag (s : State) (x : Reg) (result flag : Byte) : State :=
  (s.setReg x result).setReg flagReg flag

/-- Registers `k`, `k + 1` and so on replaced by the bytes of a list. -/
def regsWithBytes (v : Vector Byte 16) (k : Nat) : List Byte → Vector Byte 16
  | [] => v
  | b :: bytes => regsWithBytes (v.setIfInBounds k b) (k + 1) bytes

/-- `V[0] <- bytes[0]`, `V[1] <- bytes[1]`, and so on (43_index_memory.md R195). -/
def State.setRegs (s : State) (bytes : List Byte) : State := { s with v := regsWithBytes s.v 0 bytes }

/-- `I <- w`. -/
def State.setIndex (s : State) (w : Word) : State := { s with i := w }

/-- In legacy mode only, `I` advances past the `n` bytes an `Fx55` or `Fx65` touched (R194, R195). -/
def State.advanceIndex (s : State) (n : Nat) : State :=
  if s.legacy then s.setIndex (s.i + BitVec.ofNat 16 n) else s

/-! ### Program counter -/

/-- `pc <- target`. -/
def State.setPc (s : State) (target : Word) : State := { s with pc := target }

/-- The unconditional `pc <- (pc + 2) mod 0x10000` that opens every instruction (40_execution_cycle.md R122). -/
def State.preIncrement (s : State) : State := s.setPc (s.pc + 2)

/-- A skip, where its condition holds: one more `pc <- (pc + 2) mod 0x10000` (R127). -/
def State.skipIf (s : State) (cond : Bool) : State := if cond then s.setPc (s.pc + 2) else s

/-! ### Fatal conditions -/

/-- Taking a fatal condition: the record is latched and the machine is `Faulted`. Nothing else is saved and
control goes nowhere; there is no return from it (60_exceptions.md R262, R263). -/
def State.raise (s : State) (cause : Cause) (word addr : Option Word) : State :=
  { s with fault := some ⟨cause, word, addr⟩, run := .faulted }

/-- A fatal condition raised by the instruction `i` executed in `s`: of all its effects only the
pre-increment is committed (40_execution_cycle.md R125); the record holds the instruction's word and the
address it was fetched from (R252). -/
def raiseIn (i : Instr) (cause : Cause) (s : State) : Result :=
  .next (s.preIncrement.raise cause (some (encode i)) (some s.pc))

/-- The number of a cause in the fault record (60_exceptions.md R251; the numbers are decision D7, log entry 6). -/
def Cause.code : Cause → Nat
  | .decodeFailure => 1
  | .unrecognizedInstruction => 2
  | .stackOverflow => 3
  | .stackUnderflow => 4
  | .keyIndexOutOfRange => 5
  | .digitOutOfRange => 6
  | .badSpriteHeight => 7
  | .memoryOutOfBounds => 8
  | .programTooLarge => 9

/-! ### Call stack -/

/-- `Stack[SP] <- w; SP <- SP + 1`; `none` is the overflow at `SP = 16` (41_flow.md R142). -/
def State.push (s : State) (w : Word) : Option State :=
  if h : s.sp.val < 16 then
    some { s with stack := s.stack.set s.sp.val w, sp := ⟨s.sp.val + 1, by omega⟩ }
  else none

/-- `SP <- SP - 1`, the address that was in `Stack[SP]`, and that slot cleared to 0; `none` is the underflow at
`SP = 0` (R140). The cleared value 0 is decision D23 (log entry 23). -/
def State.pop (s : State) : Option (Word × State) :=
  if h : 0 < s.sp.val then
    some (s.stack[s.sp.val - 1],
      { s with stack := s.stack.set (s.sp.val - 1) 0, sp := ⟨s.sp.val - 1, by omega⟩ })
  else none

/-! ### Memory -/

/-- What an address reads as that nothing has written: the reset contents, which are the font at 0x000 .. 0x04F
and zero elsewhere (20_memory.md R61; the zero is decision D4, log entry 3). -/
def Memory.unlisted (font : Vector Byte 80) (a : Nat) : Byte :=
  if h : a < 80 then font[a] else 0

/-- The byte listed for an address. -/
def Memory.lookup : Memory → Nat → Option Byte
  | [], _ => none
  | (k, b) :: m, a => if a = k then some b else Memory.lookup m a

/-- The byte at an address (R60). -/
def Memory.read (font : Vector Byte 80) (m : Memory) (a : Nat) : Byte :=
  (Memory.lookup m a).getD (Memory.unlisted font a)

/-- List a byte for an address, in its place in the rising order. -/
def Memory.insert : Memory → Nat → Byte → Memory
  | [], a, b => [(a, b)]
  | (k, c) :: m, a, b =>
    if a < k then (a, b) :: (k, c) :: m
    else if a = k then (a, b) :: m
    else (k, c) :: Memory.insert m a b

/-- List nothing for an address. -/
def Memory.erase : Memory → Nat → Memory
  | [], _ => []
  | (k, c) :: m, a => if a = k then Memory.erase m a else (k, c) :: Memory.erase m a

/-- Write one byte. A byte equal to what the unlisted address reads as is not listed. -/
def Memory.write (font : Vector Byte 80) (m : Memory) (a : Nat) (b : Byte) : Memory :=
  if b = Memory.unlisted font a then Memory.erase m a else Memory.insert m a b

/-- Write the bytes of a list at an address and the following ones. -/
def Memory.writeList (font : Vector Byte 80) (m : Memory) (a : Nat) : List Byte → Memory
  | [] => m
  | b :: bytes => Memory.writeList font (Memory.write font m a b) (a + 1) bytes

/-- The canonical form from an address on: the addresses rise, lie in the address space, and none is listed
with the byte it would read as unlisted. -/
def Memory.wfFrom (font : Vector Byte 80) : Nat → Memory → Bool
  | _, [] => true
  | lo, (k, b) :: m =>
    decide (lo ≤ k) && decide (k < Config.memSize) && (b != Memory.unlisted font k) &&
      Memory.wfFrom font (k + 1) m

/-- The canonical form of memory. -/
def Memory.wf (font : Vector Byte 80) (m : Memory) : Bool := Memory.wfFrom font 0 m

/-- The byte at an address of the machine's memory. -/
def State.byteAt (s : State) (a : Nat) : Byte := Memory.read s.font s.mem a

/-- `Memory[a] <- b`. Any address may be written, the font and the program included (R67). -/
def State.setByte (s : State) (a : Nat) (b : Byte) : State := { s with mem := Memory.write s.font s.mem a b }

/-- Write bytes at an address and the following ones, lowest address first. -/
def State.setBytes (s : State) (a : Nat) (bytes : List Byte) : State :=
  { s with mem := Memory.writeList s.font s.mem a bytes }

/-- The bytes at an address and the following ones, lowest address first. -/
def State.bytesAt (s : State) (a : Nat) : Nat → List Byte
  | 0 => []
  | n + 1 => s.byteAt a :: State.bytesAt s (a + 1) n

/-- Every address of `[a, a + n)` exists, the addresses being unbounded integers; an empty range accesses
nothing (R66; decision D21, log entry 21). -/
def rangeExists (a n : Nat) : Bool := n = 0 ∨ a + n ≤ Config.memSize

/-- `MemRead(a, n)` (R8); `none` is `MemoryOutOfBounds`. -/
def State.memRead (s : State) (a n : Nat) : Option (List Byte) :=
  if rangeExists a n then some (s.bytesAt a n) else none

/-- `MemWrite(a, n, bytes)` (R8); `none` is `MemoryOutOfBounds`, and then nothing is written. -/
def State.memWrite (s : State) (a : Nat) (bytes : List Byte) : Option State :=
  if rangeExists a bytes.length then some (s.setBytes a bytes) else none

/-! ### Display -/

/-- `Display[r mod 32][c mod 64]`: a cell's coordinates wrap (44_display.md R212, R214). -/
def Display.pixel (d : Display) (r c : Nat) : Bool :=
  (d[r % 32]'(Nat.mod_lt r (by decide)))[c % 64]'(Nat.mod_lt c (by decide))

/-- `Display[r mod 32][c mod 64] <- p`. -/
def Display.setPixel (d : Display) (r c : Nat) (p : Bool) : Display :=
  d.set (r % 32)
    ((d[r % 32]'(Nat.mod_lt r (by decide))).set (c % 64) p (Nat.mod_lt c (by decide)))
    (Nat.mod_lt r (by decide))

/-- Every pixel 0 (R210). -/
def Display.blank : Display := Vector.replicate 32 (Vector.replicate 64 false)

/-- Sprite column `c` of a row byte: column 0 is bit 7, the leftmost pixel (R212, R216). -/
def spriteBit (row : Byte) (c : Nat) : Bool := row.getLsbD (7 - c)

/-- One cell of the blit: the pixel is XORed with the sprite bit, and a change from 1 to 0 is a collision
(R212, R213). -/
def blitCell (acc : Display × Bool) (r c : Nat) (bit : Bool) : Display × Bool :=
  let old := acc.1.pixel r c
  let new := old ^^ bit
  (acc.1.setPixel r c new, acc.2 || (old && !new))

/-- One row of the blit: the eight sprite columns, from the left (R212). -/
def blitRow (acc : Display × Bool) (r c : Nat) (row : Byte) : Display × Bool :=
  (List.range 8).foldl (fun acc k => blitCell acc r (c + k) (spriteBit row k)) acc

/-- The rows of the blit, from the top (R212). -/
def blitRows (acc : Display × Bool) (r c : Nat) : List Byte → Display × Bool
  | [] => acc
  | row :: rows => blitRows (blitRow acc r c row) (r + 1) c rows

/-- `Blit(sprite, X, Y)`: the display afterwards and whether there was a collision (R212). -/
def blit (d : Display) (sprite : List Byte) (x y : Nat) : Display × Bool := blitRows (d, false) y x sprite

/-! ### Keys and timers -/

/-- The set `P` of pressed keys, from the lowest index (45_keypad_timers.md R233). -/
def pressedKeys (keys : Vector Bool 16) : List (Fin 16) := (List.finRange 16).filter fun k => keys[k]

/-- `KEY_PICK(P)`: a member of `P`, the only one where there is one; among several the free value
`Config.keyChoice` chooses (R234; decision D10, log entry 10). `none` where no key is pressed. -/
def pickKey (keys : Vector Bool 16) : Option (Fin 16) :=
  match pressedKeys keys with
  | [] => none
  | [k] => some k
  | k :: rest => some ((k :: rest).getD (Config.keyChoice (k :: rest) % (rest.length + 1)) k)

/-- A key index as the byte `Fx0A` writes (R233). -/
def keyByte (k : Fin 16) : Byte := BitVec.ofNat 8 k.val

/-- One frame of a timer: a nonzero timer goes down by 1, a zero timer stays (60_exceptions.md R267). -/
def countDown (t : Byte) : Byte := if t = 0 then 0 else t - 1

end Sys2Proof.Machine
end

