-- ==== Sys2Proof/Machine/Operands.lean ====
section
/-!
DEFINITION. The operand forms (30_encoding.md R102; 43_index_memory.md R196). A register operand is
`State.reg` and a byte immediate is used as it is; the others are here.
-/

namespace Sys2Proof.Machine

/-- A 12-bit address, zero-extended to 16 bits (R102). -/
def addressOperand (nnn : BitVec 12) : Word := nnn.setWidth 16

/-- A register's byte, zero-extended to 16 bits (R147, R191). -/
def wideReg (s : State) (x : Reg) : Word := (s.reg x).setWidth 16

/-- The source of a shift: `Vy` in legacy mode, `Vx` otherwise (42_alu.md R168, R170). -/
def shiftSource (s : State) (x y : Reg) : Byte := if s.legacy then s.reg y else s.reg x

/-- The address of the `k`-th byte an instruction touches: `I + k`, without wrap-around (R196). -/
def effectiveAddress (s : State) (k : Nat) : Nat := s.i.toNat + k

/-- A register's value as a key index; the whole byte is tested, and `none` is out of range (R230, R231). -/
def keyOperand (s : State) (x : Reg) : Option (Fin 16) :=
  if h : (s.reg x).toNat < 16 then some ⟨(s.reg x).toNat, h⟩ else none

/-- A register's value as a hexadecimal digit; the whole byte is tested, and `none` is out of range (R192). -/
def digitOperand (s : State) (x : Reg) : Option Nat :=
  if (s.reg x).toNat < 16 then some (s.reg x).toNat else none

/-- The address of the glyph of a digit (R192; 20_memory.md R61). -/
def glyphAddress (digit : Nat) : Word := BitVec.ofNat 16 (5 * digit)

/-- The decimal digits of a byte: hundreds, tens, ones (R193). -/
def decimalDigits (b : Byte) : List Byte :=
  [BitVec.ofNat 8 (b.toNat / 100), BitVec.ofNat 8 (b.toNat / 10 % 10), BitVec.ofNat 8 (b.toNat % 10)]

/-- The registers `V0` .. `Vx`, `V0` first (R194). -/
def regsUpTo (s : State) (x : Reg) : List Byte := s.v.toList.take (x.val + 1)

end Sys2Proof.Machine
end

