-- ==== Sys2Proof/Machine/Alu.lean ====
section
/-!
DEFINITION. Register, arithmetic, logic, shift and random instructions (42_alu.md). Byte arithmetic is modulo
256 (R172). Sources are read before anything is written (R173); only the instructions named in R21 write VF as
a side effect (R174). None can raise a fatal condition.
-/

namespace Sys2Proof.Machine

/-- `6xkk` (R160). -/
def execLdImm (x : Reg) (kk : Byte) (s : State) : Result := .next (s.preIncrement.setReg x kk)

/-- `7xkk` (R161). -/
def execAddImm (x : Reg) (kk : Byte) (s : State) : Result := .next (s.preIncrement.setReg x (s.reg x + kk))

/-- `8xy0` (R162). -/
def execLdReg (x y : Reg) (s : State) : Result := .next (s.preIncrement.setReg x (s.reg y))

/-- `8xy1` (R163). -/
def execOr (x y : Reg) (s : State) : Result := .next (s.preIncrement.setReg x (s.reg x ||| s.reg y))

/-- `8xy2` (R164). -/
def execAnd (x y : Reg) (s : State) : Result := .next (s.preIncrement.setReg x (s.reg x &&& s.reg y))

/-- `8xy3` (R165). -/
def execXor (x y : Reg) (s : State) : Result := .next (s.preIncrement.setReg x (s.reg x ^^^ s.reg y))

/-- `8xy4` (R166). -/
def execAddReg (x y : Reg) (s : State) : Result :=
  .next (s.preIncrement.setRegThenFlag x (s.reg x + s.reg y) (carry (s.reg x) (s.reg y)))

/-- `8xy5` (R167). -/
def execSub (x y : Reg) (s : State) : Result :=
  .next (s.preIncrement.setRegThenFlag x (s.reg x - s.reg y) (notBorrow (s.reg x) (s.reg y)))

/-- `8xy6` (R168). -/
def execShr (x y : Reg) (s : State) : Result :=
  .next (s.preIncrement.setRegThenFlag x (shiftSource s x y >>> 1) (lowBitOut (shiftSource s x y)))

/-- `8xy7` (R169). -/
def execSubn (x y : Reg) (s : State) : Result :=
  .next (s.preIncrement.setRegThenFlag x (s.reg y - s.reg x) (notBorrow (s.reg y) (s.reg x)))

/-- `8xyE` (R170). -/
def execShl (x y : Reg) (s : State) : Result :=
  .next (s.preIncrement.setRegThenFlag x (shiftSource s x y <<< 1) (highBitOut (shiftSource s x y)))

/-- `Cxkk` (R171). The byte drawn is a free value, a fresh one for every draw (log entry 15). -/
def execRnd (x : Reg) (kk : Byte) (s : State) : Result :=
  .next { s.preIncrement.setReg x (Config.randomByte s.draws &&& kk) with draws := s.draws + 1 }

end Sys2Proof.Machine
end

