-- ==== Sys2Proof/Machine/DisplayOps.lean ====
section
/-!
DEFINITION. Display instructions (44_display.md).
-/

namespace Sys2Proof.Machine

/-- `00E0` (R210). VF is not written. -/
def execCls (s : State) : Result := .next { s.preIncrement with display := Display.blank }

/-- `Dxyn` (R211). The sprite has 1 to 15 rows and any other height is fatal (R215); `n` of 16 or more cannot
be encoded. The coordinates are read before VF is written. -/
def execDrw (x y : Reg) (n : Nat) (s : State) : Result :=
  if n = 0 ∨ 16 ≤ n then raiseIn (.drw x y n) .badSpriteHeight s
  else
    match s.memRead (effectiveAddress s 0) n with
    | none => raiseIn (.drw x y n) .memoryOutOfBounds s
    | some sprite =>
      let drawn := blit s.display sprite (s.reg x).toNat (s.reg y).toNat
      .next (State.setReg { s.preIncrement with display := drawn.1 } flagReg (flagByte drawn.2))

end Sys2Proof.Machine
end

