-- ==== Sys2Proof/Machine/Flow.lean ====
section
/-!
DEFINITION. Control-transfer instructions (41_flow.md). Every rule runs after the pre-increment, so a skip and a
return address count from the address of the next instruction. No target is checked (R148).
-/

namespace Sys2Proof.Machine

/-- `00EE` (R140). -/
def execRet (s : State) : Result :=
  match s.preIncrement.pop with
  | none => raiseIn .ret .stackUnderflow s
  | some (target, t) => .next (t.setPc target)

/-- `1nnn` (R141). -/
def execJp (nnn : BitVec 12) (s : State) : Result := .next (s.preIncrement.setPc (addressOperand nnn))

/-- `2nnn` (R142). -/
def execCall (nnn : BitVec 12) (s : State) : Result :=
  match s.preIncrement.push s.preIncrement.pc with
  | none => raiseIn (.call nnn) .stackOverflow s
  | some t => .next (t.setPc (addressOperand nnn))

/-- `3xkk` (R143). -/
def execSeImm (x : Reg) (kk : Byte) (s : State) : Result := .next (s.preIncrement.skipIf (s.reg x = kk))

/-- `4xkk` (R144). -/
def execSneImm (x : Reg) (kk : Byte) (s : State) : Result := .next (s.preIncrement.skipIf (s.reg x ≠ kk))

/-- `5xy0` (R145). -/
def execSeReg (x y : Reg) (s : State) : Result := .next (s.preIncrement.skipIf (s.reg x = s.reg y))

/-- `9xy0` (R146). -/
def execSneReg (x y : Reg) (s : State) : Result := .next (s.preIncrement.skipIf (s.reg x ≠ s.reg y))

/-- `Bnnn` (R147). The sum is kept in 16 bits, not reduced to 12. -/
def execJpV0 (nnn : BitVec 12) (s : State) : Result :=
  .next (s.preIncrement.setPc (addressOperand nnn + wideReg s 0))

end Sys2Proof.Machine
end

