-- ==== Sys2Proof/Machine/IndexMemory.lean ====
section
/-!
DEFINITION. Index-register and memory instructions (43_index_memory.md). The bounds of a whole access are
checked before anything is committed (20_memory.md R66).
-/

namespace Sys2Proof.Machine

/-- `Annn` (R190). -/
def execLdI (nnn : BitVec 12) (s : State) : Result := .next (s.preIncrement.setIndex (addressOperand nnn))

/-- `Fx1E` (R191). The sum wraps at 16 bits and VF is not written. -/
def execAddI (x : Reg) (s : State) : Result := .next (s.preIncrement.setIndex (s.i + wideReg s x))

/-- `Fx29` (R192). -/
def execLdF (x : Reg) (s : State) : Result :=
  match digitOperand s x with
  | none => raiseIn (.ldF x) .digitOutOfRange s
  | some d => .next (s.preIncrement.setIndex (glyphAddress d))

/-- `Fx33` (R193). -/
def execLdB (x : Reg) (s : State) : Result :=
  match s.preIncrement.memWrite (effectiveAddress s 0) (decimalDigits (s.reg x)) with
  | none => raiseIn (.ldB x) .memoryOutOfBounds s
  | some t => .next t

/-- `Fx55` (R194). -/
def execStoreRegs (x : Reg) (s : State) : Result :=
  match s.preIncrement.memWrite (effectiveAddress s 0) (regsUpTo s x) with
  | none => raiseIn (.storeRegs x) .memoryOutOfBounds s
  | some t => .next (t.advanceIndex (x.val + 1))

/-- `Fx65` (R195). -/
def execLoadRegs (x : Reg) (s : State) : Result :=
  match s.memRead (effectiveAddress s 0) (x.val + 1) with
  | none => raiseIn (.loadRegs x) .memoryOutOfBounds s
  | some bytes => .next ((s.preIncrement.setRegs bytes).advanceIndex (x.val + 1))

end Sys2Proof.Machine
end

