-- ==== Sys2Proof/Machine/KeypadTimers.lean ====
section
/-!
DEFINITION. Keypad and timer instructions (45_keypad_timers.md).
-/

namespace Sys2Proof.Machine

/-- `Ex9E` (R230). -/
def execSkp (x : Reg) (s : State) : Result :=
  match keyOperand s x with
  | none => raiseIn (.skp x) .keyIndexOutOfRange s
  | some k => .next (s.preIncrement.skipIf s.keys[k])

/-- `ExA1` (R231). -/
def execSknp (x : Reg) (s : State) : Result :=
  match keyOperand s x with
  | none => raiseIn (.sknp x) .keyIndexOutOfRange s
  | some k => .next (s.preIncrement.skipIf (!s.keys[k]))

/-- `Fx07` (R232). -/
def execLdVxDT (x : Reg) (s : State) : Result := .next (s.preIncrement.setReg x s.dt)

/-- `Fx0A` (R233): resolves at once where a key is pressed, and enters the key wait where none is. -/
def execLdVxK (x : Reg) (s : State) : Result :=
  match pickKey s.keys with
  | some k => .next (s.preIncrement.setReg x (keyByte k))
  | none => .next { s.preIncrement with wait := some x }

/-- `Fx15` (R235). -/
def execLdDTVx (x : Reg) (s : State) : Result := .next { s.preIncrement with dt := s.reg x }

/-- `Fx18` (R236). -/
def execLdSTVx (x : Reg) (s : State) : Result := .next { s.preIncrement with st := s.reg x }

end Sys2Proof.Machine
end

