-- ==== Sys2Proof/Machine/Cycle.lean ====
section
/-!
DEFINITION. The steps of the four agents (00_scope.md R11): the instruction step and its fetch, the end of a key
wait, the frame tick, the host; and the one step of the machine, which takes the next of them.
-/

namespace Sys2Proof.Machine

/-! ### The instruction step -/

/-- The word at `PC`; `none` where a byte of it would lie above 0xFFF. `PC` may be odd (40_execution_cycle.md
R121; 20_memory.md R64). Memory itself is read, so a store is seen by the next fetch (R71). -/
def fetch (s : State) : Option Word :=
  match s.memRead s.pc.toNat 2 with
  | some [first, second] => some (wordOfBytes first second)
  | _ => none

/-- The fatal condition of a word that is no instruction (R123). -/
def causeOfDecodeError : DecodeError → Cause
  | .decodeFailure => .decodeFailure
  | .unrecognizedInstruction => .unrecognizedInstruction

/-- `Exec(w)`: pre-increment, then dispatch and effect (R123, R126). -/
def execWord (w : Word) (s : State) : Result :=
  match decode w with
  | .ok i => exec i s
  | .error e => .next (s.preIncrement.raise (causeOfDecodeError e) (some w) (some s.pc))

/-- Instruction steps and frame ticks may happen: `RUN = Running` and `WAIT = None` (R120, R266). -/
def State.active (s : State) : Bool := s.run = .running ∧ s.wait = none

/-- `InstructionStep` (R128). A fetch fault leaves `PC` unchanged and records no word (R121; decision D6, log
entry 5). Where no instruction step may happen the state stays as it is (R120). -/
def instructionStep (s : State) : Result :=
  if s.active then
    match fetch s with
    | none => .next (s.raise .memoryOutOfBounds none (some s.pc))
    | some w => execWord w s
  else .next s

/-! ### The key wait -/

/-- `KeyWaitResolve`, where it is enabled: running, in the key wait, and some key pressed (45_keypad_timers.md
R234). -/
def resolveKeyWait (s : State) : Option State :=
  match s.run, s.wait, pickKey s.keys with
  | .running, some x, some k => some { s.setReg x (keyByte k) with wait := none }
  | _, _, _ => none

/-! ### The frame tick -/

/-- The events a frame tick emits: the tone where `ST` is nonzero on entry, then the render event with a
snapshot of the display (60_exceptions.md R266, R268, R269). -/
def tickOutputs (s : State) : List Output :=
  (if s.st = 0 then [] else [Output.tone]) ++ [Output.render s.display]

/-- `FrameTick` (R266). Where it is not enabled it does not happen. -/
def frameTick (s : State) : State :=
  if s.active then
    { s with
      dt := countDown s.dt
      st := countDown s.st
      out := s.out ++ tickOutputs s
      run := if s.stopReq then .stopped else s.run
      stopReq := false }
  else s

/-! ### The host -/

/-- `run()`: in `Stopped` the machine goes on from where it is; elsewhere nothing happens (R270). -/
def hostRun (s : State) : State := if s.run = .stopped then { s with run := .running } else s

/-- `stop()`: in `Running` the request is noted for the next frame tick; elsewhere nothing happens (R270). -/
def hostStop (s : State) : State := if s.run = .running then { s with stopReq := true } else s

/-- The host sets the key levels, at any boundary between steps and during the key wait (R271). A faulted
machine changes no more (10_state.md R32). -/
def hostSetKeys (keys : Vector Bool 16) (s : State) : State :=
  if s.run = .faulted then s else { s with keys := keys }

/-- `Load(bytes)` (R272). Only a stopped machine is loaded; the spec gives a load of a running one no meaning. -/
def hostLoad (bytes : List Byte) (s : State) : Result :=
  match s.run with
  | .stopped =>
    if Config.maxProgram < bytes.length then .next (s.raise .programTooLarge none none)
    else .next (s.setBytes Config.programBase bytes)
  | .running => .refused .loadWhileRunning
  | .faulted => .next s

/-- One step of the host. -/
def hostStep (op : HostOp) (s : State) : Result :=
  match op with
  | .setKeys keys => .next (hostSetKeys keys s)
  | .load bytes => hostLoad bytes s
  | .run => .next (hostRun s)
  | .stop => .next (hostStop s)

/-! ### The step of the machine -/

/-- An event happens. -/
def perform (e : Event) (s : State) : Result :=
  match e with
  | .instruction => instructionStep s
  | .frameTick => .next (frameTick s)
  | .host op => hostStep op s

/-- One step. A faulted machine takes none (R32, R263). A key wait that can end ends before anything else
happens (R234). Otherwise the first event of the agenda happens; where the agenda is empty, an instruction
step does (log entry 14). -/
def machineStep (s : State) : Result :=
  if s.run = .faulted then .fault (.halted s.fault)
  else
    match resolveKeyWait s with
    | some t => .next t
    | none =>
      match s.agenda with
      | [] => instructionStep s
      | e :: rest => perform e { s with agenda := rest }

/-! ### Placing an instruction -/

/-- Where `placeWord` puts an instruction: at `PC`, or at the program base where `PC` is no address an
instruction can be fetched from. -/
def placeAddress (s : State) : Word :=
  if rangeExists s.pc.toNat 2 then s.pc else BitVec.ofNat 16 Config.programBase

/-- The state in which the very next step fetches and runs the word `w`: its bytes are where `PC` points, the
machine is running and not waiting, and no other event comes first. It stands for the host's `Load` and
`run()` (70_reset_and_hazards.md R303; log entry 29). -/
def placeWord (s : State) (nbits w : Nat) : State :=
  { (s.setPc (placeAddress s)).setBytes (placeAddress s).toNat (bytesOfWord (BitVec.ofNat 16 (w % 2 ^ nbits))) with
    run := .running
    wait := none
    fault := none
    agenda := [] }

end Sys2Proof.Machine
end

