-- ==== Sys2Proof/Machine/Step.lean ====
section
/-!
DEFINITION. The step of the machine under the names the host reads.
-/

namespace Sys2Proof.Machine

/-- One step of the machine: of the CPU, of the frame clock or of the host, whichever is next (R11). -/
def step (s : State) : Host.Outcome State Fault Refusal := machineStep s

/-- `s` with an instruction placed so that the next step runs it (log entry 29). -/
def State.withFetchWord (s : State) (nbits w : Nat) : State := placeWord s nbits w

end Sys2Proof.Machine
end

