-- ==== Sys2Proof/Safety.lean ====
section
/-!
DEFINITION. The terms the statements about the machine use: when an instruction raises a fatal condition, what
each instruction may touch (10_state.md R40), the invariants of the machine, and the shapes of an instruction's
result. Nothing here is part of a step.
-/

namespace Sys2Proof.Machine

/-! ### Fatal conditions -/

/-- The fatal condition an instruction raises in a state, by the table of 60_exceptions.md R251 in the order of
R261; `none` where it completes. -/
def fatalCause (i : Instr) (s : State) : Option Cause :=
  match i with
  | .call _ => if 16 ≤ s.sp.val then some .stackOverflow else none
  | .ret => if s.sp.val = 0 then some .stackUnderflow else none
  | .skp x | .sknp x => if 0xF < (s.reg x).toNat then some .keyIndexOutOfRange else none
  | .ldF x => if 0xF < (s.reg x).toNat then some .digitOutOfRange else none
  | .drw _ _ n =>
    if n = 0 ∨ 16 ≤ n then some .badSpriteHeight
    else if 0xFFF < s.i.toNat + n - 1 then some .memoryOutOfBounds
    else none
  | .ldB _ => if 0xFFF < s.i.toNat + 2 then some .memoryOutOfBounds else none
  | .storeRegs x | .loadRegs x => if 0xFFF < s.i.toNat + x.val then some .memoryOutOfBounds else none
  | .cls | .jp _ | .seImm _ _ | .sneImm _ _ | .seReg _ _ | .ldImm _ _ | .addImm _ _ | .ldReg _ _
  | .orReg _ _ | .andReg _ _ | .xorReg _ _ | .addReg _ _ | .subReg _ _ | .shr _ _ | .subn _ _ | .shl _ _
  | .sneReg _ _ | .ldI _ | .jpV0 _ | .rnd _ _ | .ldVxDT _ | .ldVxK _ | .ldDTVx _ | .ldSTVx _
  | .addI _ => none

/-- The fault record of a fatal condition raised by an instruction fetched from `s.pc` (R252). -/
def recordOf (i : Instr) (c : Cause) (s : State) : FaultRecord := ⟨c, some (encode i), some s.pc⟩

/-- The instruction halts the machine with this cause: `PC` is incremented, `FAULT` latched with the instruction's
word, `RUN` is `Faulted` and everything else is as before (40_execution_cycle.md R125, 60_exceptions.md R262). Which
address the record holds beside them is decision D7 and is left open here. -/
def HaltsWith (i : Instr) (s : State) (c : Cause) : Prop :=
  ∃ addr, exec i s =
    .next { s with pc := s.pc + 2, run := .faulted, fault := some ⟨c, some (encode i), addr⟩ }

/-! ### What an instruction may touch (R40) -/

/-- The instruction may write the register. -/
def mayWriteReg (i : Instr) (r : Reg) : Bool :=
  match i with
  | .ldImm x _ | .addImm x _ | .ldReg x _ | .orReg x _ | .andReg x _ | .xorReg x _ | .rnd x _
  | .ldVxDT x | .ldVxK x => r = x
  | .addReg x _ | .subReg x _ | .shr x _ | .subn x _ | .shl x _ => r = x ∨ r = flagReg
  | .drw _ _ _ => r = flagReg
  | .loadRegs x => r ≤ x
  | .cls | .ret | .jp _ | .call _ | .seImm _ _ | .sneImm _ _ | .seReg _ _ | .sneReg _ _ | .ldI _ | .jpV0 _
  | .skp _ | .sknp _ | .ldDTVx _ | .ldSTVx _ | .addI _ | .ldF _ | .ldB _ | .storeRegs _ => false

/-- How many bytes the instruction stores, at `I` and the following addresses. -/
def storedLength (i : Instr) : Nat :=
  match i with
  | .ldB _ => 3
  | .storeRegs x => x.val + 1
  | .cls | .ret | .jp _ | .call _ | .seImm _ _ | .sneImm _ _ | .seReg _ _ | .ldImm _ _ | .addImm _ _
  | .ldReg _ _ | .orReg _ _ | .andReg _ _ | .xorReg _ _ | .addReg _ _ | .subReg _ _ | .shr _ _
  | .subn _ _ | .shl _ _ | .sneReg _ _ | .ldI _ | .jpV0 _ | .rnd _ _ | .drw _ _ _ | .skp _ | .sknp _
  | .ldVxDT _ | .ldVxK _ | .ldDTVx _ | .ldSTVx _ | .addI _ | .ldF _ | .loadRegs _ => 0

/-- The instruction may write `I`; `Fx55` and `Fx65` do in legacy mode only. -/
def mayWriteIndex (i : Instr) (legacy : Bool) : Bool :=
  match i with
  | .ldI _ | .addI _ | .ldF _ => true
  | .storeRegs _ | .loadRegs _ => legacy
  | .cls | .ret | .jp _ | .call _ | .seImm _ _ | .sneImm _ _ | .seReg _ _ | .ldImm _ _ | .addImm _ _
  | .ldReg _ _ | .orReg _ _ | .andReg _ _ | .xorReg _ _ | .addReg _ _ | .subReg _ _ | .shr _ _
  | .subn _ _ | .shl _ _ | .sneReg _ _ | .jpV0 _ | .rnd _ _ | .drw _ _ _ | .skp _ | .sknp _
  | .ldVxDT _ | .ldVxK _ | .ldDTVx _ | .ldSTVx _ | .ldB _ => false

/-- The instruction may leave `PC` elsewhere than after itself: a jump, a call, a return or a skip. -/
def transfersControl (i : Instr) : Bool :=
  match i with
  | .ret | .jp _ | .call _ | .seImm _ _ | .sneImm _ _ | .seReg _ _ | .sneReg _ _ | .jpV0 _ | .skp _
  | .sknp _ => true
  | .cls | .ldImm _ _ | .addImm _ _ | .ldReg _ _ | .orReg _ _ | .andReg _ _ | .xorReg _ _ | .addReg _ _
  | .subReg _ _ | .shr _ _ | .subn _ _ | .shl _ _ | .ldI _ | .rnd _ _ | .drw _ _ _ | .ldVxDT _ | .ldVxK _
  | .ldDTVx _ | .ldSTVx _ | .addI _ | .ldF _ | .ldB _ | .storeRegs _ | .loadRegs _ => false

/-- The instruction writes VF as a flag, beside its result (R21). -/
def writesFlag (i : Instr) : Bool :=
  match i with
  | .addReg _ _ | .subReg _ _ | .shr _ _ | .subn _ _ | .shl _ _ | .drw _ _ _ => true
  | .cls | .ret | .jp _ | .call _ | .seImm _ _ | .sneImm _ _ | .seReg _ _ | .ldImm _ _ | .addImm _ _
  | .ldReg _ _ | .orReg _ _ | .andReg _ _ | .xorReg _ _ | .sneReg _ _ | .ldI _ | .jpV0 _ | .rnd _ _
  | .skp _ | .sknp _ | .ldVxDT _ | .ldVxK _ | .ldDTVx _ | .ldSTVx _ | .addI _ | .ldF _ | .ldB _
  | .storeRegs _ | .loadRegs _ => false

/-! ### Shapes of a result -/

/-- No fatal condition was raised on the way from `s` to `t`. -/
def NotFatal (s t : State) : Prop := t.run = s.run ∧ t.fault = s.fault

/-- The instruction completes, leaves `PC` after itself, puts `val` in `Vx` and leaves every other register,
VF among them, as it was. -/
def SetsReg (i : Instr) (s : State) (x : Reg) (val : Byte) : Prop :=
  ∃ t, exec i s = .next t ∧ NotFatal s t ∧ t.pc = s.pc + 2 ∧ t.reg x = val ∧
    ∀ r, r ≠ x → t.reg r = s.reg r

/-- The instruction completes, leaves `PC` after itself, puts `val` in `Vx` and `flag` in VF, where `flag` is
what VF holds even if `Vx` is VF, and leaves every other register as it was. -/
def SetsRegAndFlag (i : Instr) (s : State) (x : Reg) (val flag : Byte) : Prop :=
  ∃ t, exec i s = .next t ∧ NotFatal s t ∧ t.pc = s.pc + 2 ∧ t.reg flagReg = flag ∧
    (x ≠ flagReg → t.reg x = val) ∧ ∀ r, r ≠ x → r ≠ flagReg → t.reg r = s.reg r

/-- The instruction completes with `PC` at `target` and every register as it was. -/
def SetsPc (i : Instr) (s : State) (target : Word) : Prop :=
  ∃ t, exec i s = .next t ∧ NotFatal s t ∧ t.pc = target ∧ ∀ r, t.reg r = s.reg r

/-- The instruction completes, leaves `PC` after itself, puts `w` in `I` and leaves every register as it was. -/
def SetsIndex (i : Instr) (s : State) (w : Word) : Prop :=
  ∃ t, exec i s = .next t ∧ NotFatal s t ∧ t.pc = s.pc + 2 ∧ t.i = w ∧ ∀ r, t.reg r = s.reg r

/-! ### Invariants -/

/-- A safe state: no fatal condition has halted the machine (60_exceptions.md R250). -/
def Safe (s : State) : Prop := s.run ≠ .faulted

/-- The invariants of 10_state.md R37 that the types do not already give, the canonical form of memory, and that
a stop request stands only where there is something to stop. -/
structure Inv (s : State) : Prop where
  memory : Memory.wf s.font s.mem = true
  stackClear : ∀ k : Fin 16, s.sp.val ≤ k.val → s.stack[k] = 0
  waitRunning : s.wait ≠ none → s.run = .running
  faultRecorded : s.fault ≠ none ↔ s.run = .faulted
  stopPending : s.stopReq = true → s.run ≠ .stopped

/-- The bound on `PC` of 10_state.md R23, with the bound on return addresses it rests on. -/
structure PcBounded (s : State) : Prop where
  pc : s.pc.toNat ≤ 0x10FE
  stack : ∀ k : Fin 16, s.stack[k].toNat ≤ 0x1000

end Sys2Proof.Machine
end

