-- ==== Sys2Proof/Certificates/Slice0/Obligations.lean ====
section
/-!
DEFINITION. The statements for the provers. The files named in the docstrings are those of spec/; a decision D<n>
is the spec's own choice where its source is silent, and rests on the log entry named.
-/

open Sys2Proof Sys2Proof.Machine

/-! ### Encoding -/

/-- Words written out from the patterns of the opcode map decode to the instructions they stand for. -/
def Obligations.WrittenOutWordsDecode : Prop :=
  decode 0x00E0 = .ok .cls ∧ decode 0x00EE = .ok .ret ∧ decode 0x2ABC = .ok (.call 0xABC) ∧
  decode 0x3455 = .ok (.seImm 4 0x55) ∧ decode 0x8126 = .ok (.shr 1 2) ∧
  decode 0xB300 = .ok (.jpV0 0x300) ∧ decode 0xD12A = .ok (.drw 1 2 10) ∧
  decode 0xE19E = .ok (.skp 1) ∧ decode 0xF30A = .ok (.ldVxK 3) ∧
  decode 0xF265 = .ok (.loadRegs 2) ∧ decode 0x0123 = .error .unrecognizedInstruction ∧
  decode 0x5121 = .error .unrecognizedInstruction ∧ decode 0x8128 = .error .unrecognizedInstruction

/-- Decoding the word of a well-formed instruction gives the instruction back. -/
def Obligations.DecodeOfEncodeIsIdentity : Prop :=
  ∀ i : Instr, i.wf = true → decode (encode i) = .ok i

/-- Every legal word is the word of the instruction it decodes to, and that instruction is well formed: no bit of a
word is dropped. -/
def Obligations.EncodeOfDecodeIsIdentity : Prop :=
  ∀ (w : Word) (i : Instr), decode w = .ok i → encode i = w ∧ i.wf = true

/-- A word decodes exactly when it matches a row of the opcode map, and it matches at most one
(30_encoding.md R96, R97). -/
def Obligations.LegalWordsMatchOneRow : Prop :=
  (∀ w : Word, (∃ i, decode w = .ok i) ↔ ∃ row ∈ opcodeMap, row.admits w = true) ∧
  ∀ (w : Word) (r₁ r₂ : OpcodeRow), r₁ ∈ opcodeMap → r₂ ∈ opcodeMap →
    r₁.admits w = true → r₂.admits w = true → r₁ = r₂

/-- The field extraction of R91, by masks and shifts; the sprite height `n` of family D is the same bits as `op2`. -/
def Obligations.FieldsAreSlicesOfTheWord : Prop :=
  ∀ w : Word,
    (opField w).toNat = (w >>> 12).toNat ∧ (nnnField w).toNat = (w &&& 0xFFF).toNat ∧
    (xField w).val = ((w >>> 8) &&& 0xF).toNat ∧ (yField w).val = ((w >>> 4) &&& 0xF).toNat ∧
    (kkField w).toNat = (w &&& 0xFF).toNat ∧ (op2Field w).toNat = (w &&& 0xF).toNat ∧
    (w >>> 12 = 0xD → decode w = .ok (.drw (xField w) (yField w) (w &&& 0xF).toNat))

/-- Every word has exactly one of the three shapes, by its high nibble (R93). -/
def Obligations.EveryWordHasOneShape : Prop :=
  ∀ w : Word,
    (opField w ∈ [0x0#4, 0x1#4, 0x2#4, 0xA#4, 0xB#4] ∧
      classify w = some (.imm (opField w) (nnnField w))) ∨
    (opField w ∈ [0x3#4, 0x4#4, 0x6#4, 0x7#4, 0xC#4, 0xE#4, 0xF#4] ∧
      classify w = some (.regImm (opField w) (xField w) (kkField w))) ∨
    (opField w ∈ [0x5#4, 0x8#4, 0x9#4, 0xD#4] ∧
      classify w = some (.regReg (opField w) (xField w) (yField w) (op2Field w)))

/-! ### The instruction step -/

/-- A running machine that waits for no key, and whose next event is an instruction step, runs the instruction the
two bytes at `PC` decode to. Which byte is the high one is decision D1, log entry 1; the agenda is the model's own,
log entry 14. -/
def Obligations.StepRunsTheDecodedInstruction : Prop :=
  ∀ (s : State) (i : Instr), s.run = .running → s.wait = none → s.pc.toNat ≤ 0xFFE →
    decodeBytes (s.byteAt s.pc.toNat) (s.byteAt (s.pc.toNat + 1)) = .ok i →
    (s.agenda = [] → step s = exec i s) ∧
    ∀ rest, s.agenda = .instruction :: rest → step s = exec i { s with agenda := rest }

/-- Fetching a word that matches no row, or fetching above 0xFFE, halts the machine; `PC` is incremented in the first
case only. The record and the place of the fetch before the pre-increment are decisions D7 and D6, log entries 6 and
5; the agenda is the model's own, log entry 14. -/
def Obligations.BadFetchesAreFatal : Prop :=
  ∀ (s : State) (rest : List Event), s.run = .running → s.wait = none →
    (s.agenda = [] ∧ rest = []) ∨ s.agenda = .instruction :: rest →
    (∀ e, s.pc.toNat ≤ 0xFFE →
      decodeBytes (s.byteAt s.pc.toNat) (s.byteAt (s.pc.toNat + 1)) = .error e →
      step s = .next { s with
        pc := s.pc + 2
        run := .faulted
        fault := some ⟨.unrecognizedInstruction,
          some (wordOfBytes (s.byteAt s.pc.toNat) (s.byteAt (s.pc.toNat + 1))), some s.pc⟩
        agenda := rest }) ∧
    (0xFFE < s.pc.toNat →
      step s = .next { s with
        run := .faulted
        fault := some ⟨.memoryOutOfBounds, none, some s.pc⟩
        agenda := rest })

/-- Where no step is enabled the machine stays as it is: stopped, and in the key wait with no key pressed, where
an instruction step and a frame tick do not happen (40_execution_cycle.md R120, 45_keypad_timers.md R234). That such
a step answers the unchanged state is the model's choice, log entry 28; that the key wait holds back the frame tick
is decision D11, log entry 11. -/
def Obligations.NothingHappensWhereNoStepIsEnabled : Prop :=
  ∀ s : State,
    (s.run = .stopped ∨ (s.run = .running ∧ (∃ x, s.wait = some x) ∧ ∀ k : Fin 16, s.keys[k] = false)) →
    (s.agenda = [] → step s = .next s) ∧
    ∀ e rest, s.agenda = e :: rest → e = .instruction ∨ e = .frameTick →
      step s = .next { s with agenda := rest }

/-- A faulted machine takes no step, and nothing the host or the frame clock does changes it
(60_exceptions.md R263, 10_state.md R32). That `step` says so by the fault `halted` is the model's choice,
log entry 19, and so is that a load then does nothing, log entry 17. -/
def Obligations.FaultedMachineIsTerminal : Prop :=
  ∀ s : State, s.run = .faulted →
    step s = .fault (.halted s.fault) ∧ instructionStep s = .next s ∧ resolveKeyWait s = none ∧
    frameTick s = s ∧ hostRun s = s ∧ hostStop s = s ∧ (∀ keys, hostSetKeys keys s = s) ∧
    ∀ bytes, hostLoad bytes s = .next s

/-! ### Fatal conditions -/

/-- Each instruction raises exactly the fatal condition that the table of R251 gives it, with the record of R252.
The layout of the record is decision D7, log entry 6. -/
def Obligations.FatalConditionsFollowTheTable : Prop :=
  ∀ (i : Instr) (s : State) (c : Cause), fatalCause i s = some c →
    exec i s = .next { s with pc := s.pc + 2, run := .faulted, fault := some (recordOf i c s) }

/-- Every instruction completes in every state in which the table of R251 gives it no fatal condition. -/
def Obligations.InstructionsCompleteOtherwise : Prop :=
  ∀ (i : Instr) (s : State), fatalCause i s = none → ∃ t, exec i s = .next t ∧ NotFatal s t

/-- An instruction that halts the machine commits nothing but the pre-increment (R125). -/
def Obligations.FatalInstructionsCommitOnlyThePreIncrement : Prop :=
  ∀ (i : Instr) (s t : State), exec i s = .next t → s.run ≠ .faulted → t.run = .faulted →
    ∃ record, t = { s with pc := s.pc + 2, run := .faulted, fault := some record }

/-! ### Registers, arithmetic, logic, shifts -/

/-- `6xkk` and `7xkk` (R160, R161): the immediate, or the sum modulo 256; VF is a destination only as `Vx`.
That `7xkk` sets no flag is decision D30, log entry 26. -/
def Obligations.ImmediateInstructions : Prop :=
  ∀ (x : Reg) (kk : Byte) (s : State),
    SetsReg (.ldImm x kk) s x kk ∧
    SetsReg (.addImm x kk) s x (BitVec.ofNat 8 (((s.reg x).toNat + kk.toNat) % 256))

/-- `8xy0` to `8xy3` (R162 to R165): copy, OR, AND, XOR, bit by bit; VF is a destination only as `Vx`. That
`8xy1` to `8xy3` leave VF alone is decision D30, log entry 26. -/
def Obligations.CopyAndLogicInstructions : Prop :=
  ∀ (x y : Reg) (s : State),
    SetsReg (.ldReg x y) s x (s.reg y) ∧
    (∃ b, SetsReg (.orReg x y) s x b ∧
      ∀ k < 8, b.getLsbD k = ((s.reg x).getLsbD k || (s.reg y).getLsbD k)) ∧
    (∃ b, SetsReg (.andReg x y) s x b ∧
      ∀ k < 8, b.getLsbD k = ((s.reg x).getLsbD k && (s.reg y).getLsbD k)) ∧
    (∃ b, SetsReg (.xorReg x y) s x b ∧
      ∀ k < 8, b.getLsbD k = ((s.reg x).getLsbD k ^^ (s.reg y).getLsbD k))

/-- `8xy4` (R166): the sum modulo 256 in `Vx`, then the carry in VF. -/
def Obligations.AddSetsCarry : Prop :=
  ∀ (x y : Reg) (s : State),
    SetsRegAndFlag (.addReg x y) s x
      (BitVec.ofNat 8 (((s.reg x).toNat + (s.reg y).toNat) % 256))
      (if 255 < (s.reg x).toNat + (s.reg y).toNat then 1 else 0)

/-- `8xy5` and `8xy7` (R167, R169): the difference modulo 256 in `Vx`, then NOT borrow in VF. NOT borrow at equality
is decision D9, log entry 8; VF written last is decision D8, log entry 7. -/
def Obligations.SubtractSetsNotBorrow : Prop :=
  ∀ (x y : Reg) (s : State),
    SetsRegAndFlag (.subReg x y) s x
      (BitVec.ofNat 8 ((256 + (s.reg x).toNat - (s.reg y).toNat) % 256))
      (if (s.reg y).toNat ≤ (s.reg x).toNat then 1 else 0) ∧
    SetsRegAndFlag (.subn x y) s x
      (BitVec.ofNat 8 ((256 + (s.reg y).toNat - (s.reg x).toNat) % 256))
      (if (s.reg x).toNat ≤ (s.reg y).toNat then 1 else 0)

/-- `8xy6` and `8xyE` (R168, R170): the source, `Vy` in legacy mode and `Vx` otherwise, halved or doubled modulo 256
in `Vx`, then the bit shifted out in VF. VF written last is decision D8, log entry 7. -/
def Obligations.ShiftsByOneSetTheBitShiftedOut : Prop :=
  ∀ (x y : Reg) (s : State) (src : Nat),
    src = (if s.legacy = true then (s.reg y).toNat else (s.reg x).toNat) →
    SetsRegAndFlag (.shr x y) s x (BitVec.ofNat 8 (src / 2)) (BitVec.ofNat 8 (src % 2)) ∧
    SetsRegAndFlag (.shl x y) s x (BitVec.ofNat 8 (2 * src % 256)) (BitVec.ofNat 8 (src / 128))

/-- `Cxkk` (R171): the byte drawn, whatever it is, masked by `kk`; so every bit that is 0 in `kk` is 0 in `Vx`. The
next draw is a fresh one. The free byte is decision D15, log entry 15. -/
def Obligations.RandomByteIsMasked : Prop :=
  ∀ (x : Reg) (kk : Byte) (s : State),
    ∃ t, exec (.rnd x kk) s = .next t ∧ NotFatal s t ∧ t.pc = s.pc + 2 ∧
      t.reg x = Config.randomByte s.draws &&& kk ∧ t.draws = s.draws + 1 ∧
      (∀ k, kk.getLsbD k = false → (t.reg x).getLsbD k = false) ∧ ∀ r, r ≠ x → t.reg r = s.reg r

/-- The instructions that name VF as their flag leave 0 or 1 in it whenever they complete (10_state.md R21). VF
written last is decision D8, log entry 7. -/
def Obligations.FlagIsZeroOrOne : Prop :=
  ∀ (i : Instr) (s t : State), writesFlag i = true → fatalCause i s = none → exec i s = .next t →
    t.reg flagReg = 0 ∨ t.reg flagReg = 1

/-! ### Control transfer -/

/-- `1nnn` and `Bnnn` (R141, R147): the address, or the address plus V0 kept in 16 bits. -/
def Obligations.JumpTargets : Prop :=
  ∀ (nnn : BitVec 12) (s : State),
    SetsPc (.jp nnn) s (BitVec.ofNat 16 nnn.toNat) ∧
    SetsPc (.jpV0 nnn) s (BitVec.ofNat 16 (nnn.toNat + (s.reg 0).toNat))

/-- `2nnn` (R142): pushes the address of the next instruction and jumps, so that a `00EE` executed then resumes there
at the depth before the call; with sixteen addresses on the stack it halts the machine. -/
def Obligations.CallPushesTheReturnAddress : Prop :=
  ∀ (nnn : BitVec 12) (s : State),
    (∀ h : s.sp.val < 16, ∃ t, exec (.call nnn) s = .next t ∧ NotFatal s t ∧
      t.pc.toNat = nnn.toNat ∧ t.sp.val = s.sp.val + 1 ∧ t.stack[s.sp.val] = s.pc + 2 ∧
      (∀ k : Fin 16, k.val ≠ s.sp.val → t.stack[k] = s.stack[k]) ∧ (∀ r, t.reg r = s.reg r) ∧
      ∃ u, exec .ret t = .next u ∧ u.pc = s.pc + 2 ∧ u.sp = s.sp) ∧
    (s.sp.val = 16 → HaltsWith (.call nnn) s .stackOverflow)

/-- `00EE` (R140): pops the return address into `PC` and clears the slot; with an empty stack it halts the machine.
That a cleared slot holds 0 is decision D23, log entry 23. -/
def Obligations.ReturnPopsTheReturnAddress : Prop :=
  ∀ s : State,
    (∀ h : 0 < s.sp.val, ∃ t, exec .ret s = .next t ∧ NotFatal s t ∧
      t.pc = s.stack[s.sp.val - 1] ∧ t.sp.val = s.sp.val - 1 ∧ t.stack[s.sp.val - 1] = 0 ∧
      (∀ k : Fin 16, k.val ≠ s.sp.val - 1 → t.stack[k] = s.stack[k]) ∧ ∀ r, t.reg r = s.reg r) ∧
    (s.sp.val = 0 → HaltsWith .ret s .stackUnderflow)

/-- A call followed by a return leaves nothing behind but `PC` after the call, in every state whose free stack slots
are clear (90_conflicts.md C2). That a cleared slot holds 0 is decision D23, log entry 23. -/
def Obligations.CallThenReturnRestoresTheState : Prop :=
  ∀ (nnn : BitVec 12) (s : State), Inv s → s.sp.val < 16 →
    ∃ t, exec (.call nnn) s = .next t ∧ exec .ret t = .next { s with pc := s.pc + 2 }

/-- `3xkk` and `4xkk` (R143, R144): one more increment of 2 when the condition holds. -/
def Obligations.SkipsOnImmediate : Prop :=
  ∀ (x : Reg) (kk : Byte) (s : State),
    SetsPc (.seImm x kk) s (if s.reg x = kk then s.pc + 4 else s.pc + 2) ∧
    SetsPc (.sneImm x kk) s (if s.reg x = kk then s.pc + 2 else s.pc + 4)

/-- `5xy0` and `9xy0` (R145, R146): one more increment of 2 when the condition holds. -/
def Obligations.SkipsOnRegister : Prop :=
  ∀ (x y : Reg) (s : State),
    SetsPc (.seReg x y) s (if s.reg x = s.reg y then s.pc + 4 else s.pc + 2) ∧
    SetsPc (.sneReg x y) s (if s.reg x = s.reg y then s.pc + 2 else s.pc + 4)

/-- `Ex9E` and `ExA1` (R230, R231): a skip on the key whose index is the whole byte `Vx`; above 15 they halt the
machine. -/
def Obligations.SkipsOnKey : Prop :=
  ∀ (x : Reg) (s : State),
    (∀ h : (s.reg x).toNat < 16,
      SetsPc (.skp x) s (if s.keys[(s.reg x).toNat] = true then s.pc + 4 else s.pc + 2) ∧
      SetsPc (.sknp x) s (if s.keys[(s.reg x).toNat] = true then s.pc + 2 else s.pc + 4)) ∧
    (15 < (s.reg x).toNat →
      HaltsWith (.skp x) s .keyIndexOutOfRange ∧ HaltsWith (.sknp x) s .keyIndexOutOfRange)

/-- Only a jump, a call, a return or a skip leaves `PC` elsewhere than after the instruction
(40_execution_cycle.md R122, 10_state.md R40; decision D30, log entry 26). -/
def Obligations.OtherInstructionsFallThrough : Prop :=
  ∀ (i : Instr) (s t : State), exec i s = .next t →
    t.pc = s.pc + 2 ∨ (transfersControl i = true ∧ fatalCause i s = none)

/-! ### Index register and memory -/

/-- `Annn` (R190): the address. `Fx29` (R192): five times the digit; above 15 it halts the machine. -/
def Obligations.IndexFromAddressOrDigit : Prop :=
  ∀ s : State,
    (∀ nnn : BitVec 12, SetsIndex (.ldI nnn) s (BitVec.ofNat 16 nnn.toNat)) ∧
    ∀ x : Reg,
      ((s.reg x).toNat ≤ 15 → SetsIndex (.ldF x) s (BitVec.ofNat 16 (5 * (s.reg x).toNat))) ∧
      (15 < (s.reg x).toNat → HaltsWith (.ldF x) s .digitOutOfRange)

/-- `Fx1E` (R191): the sum modulo 0x10000 in `I`. That it wraps at 16 bits and does not write VF is the spec's
decisions D22 and D30, log entries 22 and 26. -/
def Obligations.IndexAddWrapsAtSixteenBits : Prop :=
  ∀ (x : Reg) (s : State), SetsIndex (.addI x) s (BitVec.ofNat 16 ((s.i.toNat + (s.reg x).toNat) % 0x10000))

/-- `Fx33` (R193): the decimal digits at `I`, `I + 1`, `I + 2`, and no other byte; above the end of memory it halts
the machine and writes nothing. -/
def Obligations.DecimalDigitsAreStored : Prop :=
  ∀ (x : Reg) (s : State),
    (s.i.toNat ≤ 0xFFD → ∃ t, exec (.ldB x) s = .next t ∧ NotFatal s t ∧ t.pc = s.pc + 2 ∧
      (t.byteAt s.i.toNat).toNat = (s.reg x).toNat / 100 ∧
      (t.byteAt (s.i.toNat + 1)).toNat = (s.reg x).toNat / 10 % 10 ∧
      (t.byteAt (s.i.toNat + 2)).toNat = (s.reg x).toNat % 10 ∧
      (∀ a, a < s.i.toNat ∨ s.i.toNat + 2 < a → t.byteAt a = s.byteAt a) ∧
      t.i = s.i ∧ ∀ r, t.reg r = s.reg r) ∧
    (0xFFD < s.i.toNat → HaltsWith (.ldB x) s .memoryOutOfBounds)

/-- `Fx55` (R194): `V0` .. `Vx` at `I` and the following addresses, and no other byte; `I` advances in legacy mode
only; above the end of memory it halts the machine and writes nothing. -/
def Obligations.RegistersAreStored : Prop :=
  ∀ (x : Reg) (s : State),
    (s.i.toNat + x.val ≤ 0xFFF → ∃ t, exec (.storeRegs x) s = .next t ∧ NotFatal s t ∧ t.pc = s.pc + 2 ∧
      (∀ k : Reg, k ≤ x → t.byteAt (s.i.toNat + k.val) = s.reg k) ∧
      (∀ a, a < s.i.toNat ∨ s.i.toNat + x.val < a → t.byteAt a = s.byteAt a) ∧
      t.i.toNat = s.i.toNat + (if s.legacy = true then x.val + 1 else 0) ∧ ∀ r, t.reg r = s.reg r) ∧
    (0xFFF < s.i.toNat + x.val → HaltsWith (.storeRegs x) s .memoryOutOfBounds)

/-- `Fx65` (R195): the bytes at `I` and the following addresses in `V0` .. `Vx`, and the registers above kept; `I`
advances in legacy mode only; above the end of memory it halts the machine and loads nothing. -/
def Obligations.RegistersAreLoaded : Prop :=
  ∀ (x : Reg) (s : State),
    (s.i.toNat + x.val ≤ 0xFFF → ∃ t, exec (.loadRegs x) s = .next t ∧ NotFatal s t ∧ t.pc = s.pc + 2 ∧
      (∀ k : Reg, k ≤ x → t.reg k = s.byteAt (s.i.toNat + k.val)) ∧ (∀ k : Reg, x < k → t.reg k = s.reg k) ∧
      t.i.toNat = s.i.toNat + (if s.legacy = true then x.val + 1 else 0) ∧
      ∀ a, t.byteAt a = s.byteAt a) ∧
    (0xFFF < s.i.toNat + x.val → HaltsWith (.loadRegs x) s .memoryOutOfBounds)

/-- Outside legacy mode, what `Fx55` stored `Fx65` loads back, whatever the registers hold in between
(43_index_memory.md R194, R195; 20_memory.md R65). -/
def Obligations.LoadGivesBackWhatWasStored : Prop :=
  ∀ (x : Reg) (s : State) (v : Vector Byte 16), s.legacy = false → s.i.toNat + x.val ≤ 0xFFF →
    ∃ t u, exec (.storeRegs x) s = .next t ∧ exec (.loadRegs x) { t with v := v } = .next u ∧
      (∀ k : Reg, k ≤ x → u.reg k = s.reg k) ∧ (∀ k : Reg, x < k → u.reg k = v[k]) ∧ u.i = s.i

/-- A store of the two bytes of the next instruction is what the next step fetches (20_memory.md R71, decision D25,
log entry 25; the byte order is decision D1, log entry 1). -/
def Obligations.StoreIsSeenByTheNextFetch : Prop :=
  ∀ s : State, s.run = .running → s.wait = none → s.agenda = [] → s.pc.toNat ≤ 0xFFC → s.i = s.pc + 2 →
    decodeBytes (s.byteAt s.pc.toNat) (s.byteAt (s.pc.toNat + 1)) = .ok (.storeRegs 1) →
    ∃ t, step s = .next t ∧ t.pc = s.pc + 2 ∧ step t = execWord (wordOfBytes (s.reg 0) (s.reg 1)) t

/-- A memory is known by its reads: two memories in canonical form that read the same are the same. The canonical form
is the model's, log entry 30. -/
def Obligations.CanonicalMemoriesAreEqualByReads : Prop :=
  ∀ (font : Vector Byte 80) (m₁ m₂ : Memory), Memory.wf font m₁ = true → Memory.wf font m₂ = true →
    (∀ a < 0x1000, Memory.read font m₁ a = Memory.read font m₂ a) → m₁ = m₂

/-! ### Display -/

/-- `00E0` (R210): every pixel 0, VF and every other register as before. -/
def Obligations.ClearBlanksTheDisplay : Prop :=
  ∀ s : State, ∃ t, exec .cls s = .next t ∧ NotFatal s t ∧ t.pc = s.pc + 2 ∧
    (∀ r c, r < 32 → c < 64 → t.display.pixel r c = false) ∧ ∀ r, t.reg r = s.reg r

/-- `Dxyn` (R211, R212, R213, R215): each cell `((y+r) mod 32, (x+c) mod 64)` of the sprite is XORed with its bit, every
other cell is as before, and VF is 1 exactly when some cell went from 1 to 0; a height of 0, one of 16 or
more, which no word can ask for (log entry 31), and a sprite that runs past the end of memory halt the machine. -/
def Obligations.DrawXorsTheSprite : Prop :=
  ∀ (x y : Reg) (n : Nat) (s : State),
    (n = 0 ∨ 16 ≤ n → HaltsWith (.drw x y n) s .badSpriteHeight) ∧
    (0 < n → n ≤ 15 → 0xFFF < s.i.toNat + n - 1 → HaltsWith (.drw x y n) s .memoryOutOfBounds) ∧
    (0 < n → n ≤ 15 → s.i.toNat + n - 1 ≤ 0xFFF → ∃ t, exec (.drw x y n) s = .next t ∧ NotFatal s t ∧
      t.pc = s.pc + 2 ∧ t.i = s.i ∧
      (∀ r c, r < n → c < 8 →
        t.display.pixel (((s.reg y).toNat + r) % 32) (((s.reg x).toNat + c) % 64) =
          (s.display.pixel (((s.reg y).toNat + r) % 32) (((s.reg x).toNat + c) % 64) ^^
            (s.byteAt (s.i.toNat + r)).getLsbD (7 - c))) ∧
      (∀ R C, R < 32 → C < 64 →
        (∀ r c, r < n → c < 8 → R ≠ ((s.reg y).toNat + r) % 32 ∨ C ≠ ((s.reg x).toNat + c) % 64) →
        t.display.pixel R C = s.display.pixel R C) ∧
      (t.reg flagReg = 0 ∨ t.reg flagReg = 1) ∧
      (t.reg flagReg = 1 ↔ ∃ R C, R < 32 ∧ C < 64 ∧
        s.display.pixel R C = true ∧ t.display.pixel R C = false) ∧
      ∀ r, r ≠ flagReg → t.reg r = s.reg r)

/-- Drawing the same sprite twice in the same place restores the display; over a blank target, the second draw reports
a collision exactly when the sprite has a 1 bit, and the first never does (R213, 95_test_vectors.md S6). -/
def Obligations.DrawingTwiceErases : Prop :=
  ∀ (x y : Reg) (n : Nat) (s : State), x ≠ flagReg → y ≠ flagReg → 0 < n → n ≤ 15 →
    s.i.toNat + n - 1 ≤ 0xFFF →
    ∃ t u, exec (.drw x y n) s = .next t ∧ exec (.drw x y n) t = .next u ∧ u.display = s.display ∧
      ((∀ R C, R < 32 → C < 64 → s.display.pixel R C = false) →
        t.reg flagReg = 0 ∧
        (u.reg flagReg = 1 ↔ ∃ r c, r < n ∧ c < 8 ∧ (s.byteAt (s.i.toNat + r)).getLsbD (7 - c) = true))

/-! ### Keypad and timers -/

/-- `Fx07` and `Fx15` (R232, R235), and the write of `Fx18` (R236). -/
def Obligations.TimersAreReadAndSet : Prop :=
  ∀ (x : Reg) (s : State),
    SetsReg (.ldVxDT x) s x s.dt ∧
    (∃ t, exec (.ldDTVx x) s = .next t ∧ NotFatal s t ∧ t.pc = s.pc + 2 ∧ t.dt = s.reg x ∧ t.st = s.st ∧
      ∀ r, t.reg r = s.reg r) ∧
    ∃ t, exec (.ldSTVx x) s = .next t ∧ NotFatal s t ∧ t.pc = s.pc + 2 ∧ t.st = s.reg x ∧ t.dt = s.dt ∧
      ∀ r, t.reg r = s.reg r

/-- `Fx0A` (R233): with a key pressed it puts the index of a pressed key in `Vx` within the step, the only one where
there is one; with none pressed it suspends the machine with `Vx` not yet written. That a key already down counts,
and that the choice among several is free, is decision D10, log entries 9 and 10. -/
def Obligations.KeyWaitInstruction : Prop :=
  ∀ (x : Reg) (s : State),
    ((∃ k : Fin 16, s.keys[k] = true) →
      ∃ k : Fin 16, s.keys[k] = true ∧ SetsReg (.ldVxK x) s x (BitVec.ofNat 8 k.val) ∧
        ∃ t, exec (.ldVxK x) s = .next t ∧ t.wait = s.wait) ∧
    ((∀ k : Fin 16, s.keys[k] = false) →
      exec (.ldVxK x) s = .next { s with pc := s.pc + 2, wait := some x })

/-- While the machine waits for a key, a pressed key is resolved before any other event of the agenda, `Vx` gets the
index of a pressed key, and nothing else changes (R234). That the frame tick comes after is decision D11, log entry
11. -/
def Obligations.PressedKeyEndsTheWait : Prop :=
  ∀ (x : Reg) (s : State), s.run = .running → s.wait = some x → (∃ k : Fin 16, s.keys[k] = true) →
    ∃ k : Fin 16, s.keys[k] = true ∧
      step s = .next { s with v := s.v.set x (BitVec.ofNat 8 k.val), wait := none }

/-- A frame tick of a running machine that waits for no key (60_exceptions.md R266 to R268): each timer goes down by
one unless it is 0, the tone is emitted exactly when `ST` was not 0, the display is rendered last, and a pending stop
request stops the machine and is cleared. Nothing else changes. The order, the sampling of the tone and its gate are
decisions D12 and D13, log entries 12 and 13. -/
def Obligations.FrameTickEffect : Prop :=
  ∀ (s : State) (rest : List Event), s.run = .running → s.wait = none → s.agenda = .frameTick :: rest →
    ∃ t, step s = .next t ∧ t.dt.toNat = s.dt.toNat - 1 ∧ t.st.toNat = s.st.toNat - 1 ∧
      t.out = s.out ++ (if s.st = 0 then [.render s.display] else [.tone, .render s.display]) ∧
      t.run = (if s.stopReq = true then .stopped else .running) ∧
      t = { s with dt := t.dt, st := t.st, out := t.out, run := t.run, stopReq := false, agenda := rest }

/-- At every frame tick exactly one render event is emitted, it carries the whole display of that moment, and the
display is not changed by it (R269). That it comes last in the tick is R266, decision D13, log entry 13. -/
def Obligations.RenderCarriesTheWholeDisplay : Prop :=
  ∀ s : State, s.run = .running → s.wait = none →
    ∃ before, (frameTick s).out = s.out ++ before ++ [.render s.display] ∧
      (∀ grid, Output.render grid ∉ before) ∧ (frameTick s).display = s.display

/-- `Fx18` with the value `v` is followed by a tone at each of the next `v` frame ticks and by none after, and after
`n` ticks each timer is down by `n`, or 0 (R267, R268, 45_keypad_timers.md R236). The gate of the tone is decision
D12, log entry 12; that there are `v` tones and not one fewer is decision D13, log entry 13: the tone is sampled before
`ST` goes down. -/
def Obligations.SoundTimerTonesForItsValue : Prop :=
  ∀ (x : Reg) (s : State) (n : Nat), s.run = .running → s.wait = none → s.stopReq = false →
    ∃ t, exec (.ldSTVx x) s = .next t ∧
      (frameTick^[n] t).st.toNat = (s.reg x).toNat - n ∧ (frameTick^[n] t).dt.toNat = s.dt.toNat - n ∧
      (frameTick^[n] t).out.count .tone = s.out.count .tone + min n (s.reg x).toNat

/-- No instruction but `Fx18` can tell two machines apart that differ in `ST` only (10_state.md R27). -/
def Obligations.SoundTimerIsInvisibleToPrograms : Prop :=
  ∀ (i : Instr) (s t : State) (st : Byte), exec i s = .next t → (∀ x, i ≠ .ldSTVx x) →
    exec i { s with st := st } = .next { t with st := st }

/-! ### The host -/

/-- The host's operations. `run()` starts a stopped machine where it stands, `stop()` of a running one only notes the
request, and neither does anything elsewhere (R270; decision D18, log entry 18); a key event sets the sixteen levels of
a machine that is not faulted and nothing else (R271; decision D16, log entry 16). Where a host operation is the next
event, and no key wait ends first, a step is that operation; the agenda is the model's own, log entry 14. -/
def Obligations.RunAndStopRequests : Prop :=
  ∀ s : State,
    (s.run = .stopped → hostRun s = { s with run := .running } ∧ hostStop s = s) ∧
    (s.run = .running → hostRun s = s ∧ hostStop s = { s with stopReq := true }) ∧
    (s.run = .faulted → hostRun s = s ∧ hostStop s = s) ∧
    (s.run ≠ .faulted → ∀ keys, hostSetKeys keys s = { s with keys := keys }) ∧
    ∀ rest, s.run = .stopped ∨ (s.run = .running ∧ (s.wait = none ∨ ∀ k : Fin 16, s.keys[k] = false)) →
      (s.agenda = .host .run :: rest → step s = .next { s with run := .running, agenda := rest }) ∧
      (s.agenda = .host .stop :: rest →
        step s = .next { s with stopReq := (s.stopReq || s.run = .running), agenda := rest }) ∧
      (∀ keys, s.agenda = .host (.setKeys keys) :: rest →
        step s = .next { s with keys := keys, agenda := rest }) ∧
      ∀ bytes, s.agenda = .host (.load bytes) :: rest → step s = hostLoad bytes { s with agenda := rest }

/-- `Load` (R272): of a stopped machine, at most 0xE00 bytes are copied to 0x200 and the following addresses and
nothing else changes; more of them halt the machine with memory unchanged; a running machine is not loaded
(decision D17, log entry 17; the record is decision D7, log entry 6). -/
def Obligations.LoadCopiesTheProgram : Prop :=
  ∀ (bytes : List Byte) (s : State),
    (s.run = .stopped → bytes.length ≤ 0xE00 → ∃ t, hostLoad bytes s = .next t ∧
      (∀ k, ∀ h : k < bytes.length, t.byteAt (0x200 + k) = bytes[k]) ∧
      (∀ a, a < 0x200 ∨ 0x200 + bytes.length ≤ a → t.byteAt a = s.byteAt a) ∧
      t = { s with mem := t.mem }) ∧
    (s.run = .stopped → 0xE00 < bytes.length →
      hostLoad bytes s = .next { s with run := .faulted, fault := some ⟨.programTooLarge, none, none⟩ }) ∧
    (s.run = .running → hostLoad bytes s = .refused .loadWhileRunning)

/-! ### What an instruction leaves alone (10_state.md R40; decision D30, log entry 26) -/

/-- A register the instruction does not name as a destination, and that is not the flag it writes, keeps its value. -/
def Obligations.OtherRegistersAreKept : Prop :=
  ∀ (i : Instr) (s t : State) (r : Reg), exec i s = .next t → mayWriteReg i r = false → t.reg r = s.reg r

/-- `I` is written by `Annn`, `Fx1E`, `Fx29`, and in legacy mode by `Fx55` and `Fx65`; the display by `00E0` and `Dxyn`
only. -/
def Obligations.IndexAndDisplayAreKept : Prop :=
  ∀ (i : Instr) (s t : State), exec i s = .next t →
    (mayWriteIndex i s.legacy = false → t.i = s.i) ∧
    (i ≠ .cls → (∀ x y n, i ≠ .drw x y n) → t.display = s.display)

/-- The call stack and its depth are written by `2nnn` and `00EE` only, `DT` by `Fx15` only, `ST` by `Fx18` only. -/
def Obligations.StackAndTimersAreKept : Prop :=
  ∀ (i : Instr) (s t : State), exec i s = .next t →
    (i ≠ .ret → (∀ nnn, i ≠ .call nnn) → t.sp = s.sp ∧ t.stack = s.stack) ∧
    ((∀ x, i ≠ .ldDTVx x) → t.dt = s.dt) ∧ ((∀ x, i ≠ .ldSTVx x) → t.st = s.st)

/-- Every byte of memory outside the bytes the instruction stores, which are the `storedLength i` bytes at `I`, reads
as before. -/
def Obligations.OtherMemoryIsKept : Prop :=
  ∀ (i : Instr) (s t : State) (a : Nat), exec i s = .next t →
    ¬(effectiveAddress s 0 ≤ a ∧ a < effectiveAddress s 0 + storedLength i) → t.byteAt a = s.byteAt a

/-- No instruction writes the keys, the parameters, the stop request, the agenda or the events emitted; `Fx0A` alone
enters the key wait, `Cxkk` alone draws, and only a fatal condition touches the run state or the record. -/
def Obligations.ControlStateIsKept : Prop :=
  ∀ (i : Instr) (s t : State), exec i s = .next t →
    t.keys = s.keys ∧ t.legacy = s.legacy ∧ t.font = s.font ∧ t.stopReq = s.stopReq ∧ t.agenda = s.agenda ∧
    t.out = s.out ∧ ((∀ x, i ≠ .ldVxK x) → t.wait = s.wait) ∧ ((∀ x kk, i ≠ .rnd x kk) → t.draws = s.draws) ∧
    (fatalCause i s = none → NotFatal s t)

/-! ### Invariants and reset -/

/-- Every step keeps the invariants: memory stays canonical, free stack slots stay clear, only a running machine waits,
a record stands exactly in a faulted machine, and a stop request never stands in a stopped one (10_state.md R37). -/
def Obligations.EveryStepKeepsTheInvariants : Prop :=
  ∀ s t : State, Inv s → step s = .next t → Inv t

/-- Every step keeps `PC` at most 0x10FE and every return address at most 0x1000 (10_state.md R23). -/
def Obligations.EveryStepKeepsThePcBound : Prop :=
  ∀ s t : State, PcBounded s → step s = .next t → PcBounded t

/-- A newly constructed machine meets the invariants and the bound, for every `LEGACY` and `FONT`. That the registers
and the stack are zero is decision D4, log entry 3. -/
def Obligations.ConstructionEstablishesTheInvariants : Prop :=
  (∀ legacy font, Inv (State.construct legacy font) ∧ PcBounded (State.construct legacy font)) ∧
  ∃ legacy font, State.reset = State.construct legacy font

/-- No step changes the parameters the machine was constructed with (10_state.md R31, 00_scope.md R5). -/
def Obligations.ParametersNeverChange : Prop :=
  ∀ s t : State, step s = .next t → t.legacy = s.legacy ∧ t.font = s.font

/-- Reset (10_state.md R38): `PC` is 0x200, the font stands at 0x000 to 0x04F with the glyph of digit `d` at `5·d`, the
machine is stopped, waits for nothing and has no fault. -/
def Obligations.ResetIsTheSourceState : Prop :=
  ∀ (legacy : Bool) (font : Vector Byte 80) (s : State), s = State.construct legacy font →
    s.pc = 0x200 ∧ s.run = .stopped ∧ s.wait = none ∧ s.fault = none ∧ s.legacy = legacy ∧
    ∀ (d : Fin 16) (k : Fin 5), s.byteAt (5 * d.val + k.val) = font[5 * d.val + k.val]

/-- The reset values the source does not give (10_state.md R38): zeros and falses. DESIGN CHOICE: decisions D4 and D18,
log entry 3. -/
def Obligations.ResetZeroesTheRest : Prop :=
  ∀ (legacy : Bool) (font : Vector Byte 80) (s : State), s = State.construct legacy font →
    (∀ r, s.reg r = 0) ∧ s.i = 0 ∧ s.sp = 0 ∧ (∀ k : Fin 16, s.stack[k] = 0) ∧ s.dt = 0 ∧ s.st = 0 ∧
    (∀ a, 0x50 ≤ a → s.byteAt a = 0) ∧ (∀ r c, s.display.pixel r c = false) ∧
    (∀ k : Fin 16, s.keys[k] = false) ∧ s.stopReq = false

/-- A program loaded into a newly constructed machine and run begins at 0x200: the first step executes the word of its
first two bytes (70_reset_and_hazards.md R302, R303; the byte order is decision D1, log entry 1). -/
def Obligations.ProgramBeginsAtItsFirstWord : Prop :=
  ∀ (legacy : Bool) (font : Vector Byte 80) (b₀ b₁ : Byte) (bytes : List Byte),
    (b₀ :: b₁ :: bytes).length ≤ 0xE00 →
    ∃ t, hostLoad (b₀ :: b₁ :: bytes) (State.construct legacy font) = .next t ∧
      step (hostRun t) = execWord (wordOfBytes b₀ b₁) (hostRun t)
end

