-- ==== Sys2Proof/Laws/Decode.lean ====
section
/-!
SUPPORT. The fields of the words the encoder builds, and the parts of a word put together again.
-/

namespace Sys2Proof

/-- A slice of a concatenation that lies in its low part. -/
theorem extractLsb'_append_low {m n : Nat} (a : BitVec m) (b : BitVec n) (k w : Nat) (h : k + w ≤ n) :
    (a ++ b).extractLsb' k w = b.extractLsb' k w := by
  ext i hi
  simp only [BitVec.getElem_extractLsb', BitVec.getLsbD_append]
  rw [if_pos (by omega)]

/-- A slice of a concatenation that lies in its high part. -/
theorem extractLsb'_append_high {m n : Nat} (a : BitVec m) (b : BitVec n) (k w : Nat) :
    (a ++ b).extractLsb' (n + k) w = a.extractLsb' k w := by
  ext i hi
  simp only [BitVec.getElem_extractLsb', BitVec.getLsbD_append]
  rw [if_neg (by omega)]
  congr 1
  omega

theorem regNibble_toFin (x : Reg) : (regNibble x).toFin = x := rfl

/-! ### Shape `Imm` -/

@[simp] theorem opField_immWord (op : BitVec 4) (nnn : BitVec 12) : opField (immWord op nnn) = op :=
  (extractLsb'_append_high op nnn 0 4).trans (by simp)

@[simp] theorem nnnField_immWord (op : BitVec 4) (nnn : BitVec 12) : nnnField (immWord op nnn) = nnn :=
  (extractLsb'_append_low op nnn 0 12 (by decide)).trans (by simp)

/-! ### Shape `RegImm` -/

@[simp] theorem opField_regImmWord (op : BitVec 4) (x : Reg) (kk : Byte) :
    opField (regImmWord op x kk) = op :=
  ((extractLsb'_append_high (op ++ regNibble x) kk 4 4).trans
    (extractLsb'_append_high op (regNibble x) 0 4)).trans (by simp)

@[simp] theorem xField_regImmWord (op : BitVec 4) (x : Reg) (kk : Byte) :
    xField (regImmWord op x kk) = x :=
  congrArg BitVec.toFin (((extractLsb'_append_high (op ++ regNibble x) kk 0 4).trans
    (extractLsb'_append_low op (regNibble x) 0 4 (by decide))).trans (by simp : _ = regNibble x))

@[simp] theorem kkField_regImmWord (op : BitVec 4) (x : Reg) (kk : Byte) :
    kkField (regImmWord op x kk) = kk :=
  (extractLsb'_append_low (op ++ regNibble x) kk 0 8 (by decide)).trans (by simp)

/-! ### Shape `RegReg` -/

@[simp] theorem opField_regRegWord (op : BitVec 4) (x y : Reg) (op2 : BitVec 4) :
    opField (regRegWord op x y op2) = op :=
  (((extractLsb'_append_high (op ++ regNibble x ++ regNibble y) op2 8 4).trans
    (extractLsb'_append_high (op ++ regNibble x) (regNibble y) 4 4)).trans
    (extractLsb'_append_high op (regNibble x) 0 4)).trans (by simp)

@[simp] theorem xField_regRegWord (op : BitVec 4) (x y : Reg) (op2 : BitVec 4) :
    xField (regRegWord op x y op2) = x :=
  congrArg BitVec.toFin ((((extractLsb'_append_high (op ++ regNibble x ++ regNibble y) op2 4 4).trans
    (extractLsb'_append_high (op ++ regNibble x) (regNibble y) 0 4)).trans
    (extractLsb'_append_low op (regNibble x) 0 4 (by decide))).trans (by simp : _ = regNibble x))

@[simp] theorem yField_regRegWord (op : BitVec 4) (x y : Reg) (op2 : BitVec 4) :
    yField (regRegWord op x y op2) = y :=
  congrArg BitVec.toFin (((extractLsb'_append_high (op ++ regNibble x ++ regNibble y) op2 0 4).trans
    (extractLsb'_append_low (op ++ regNibble x) (regNibble y) 0 4 (by decide))).trans
    (by simp : _ = regNibble y))

@[simp] theorem op2Field_regRegWord (op : BitVec 4) (x y : Reg) (op2 : BitVec 4) :
    op2Field (regRegWord op x y op2) = op2 :=
  (extractLsb'_append_low (op ++ regNibble x ++ regNibble y) op2 0 4 (by decide)).trans (by simp)

/-! ### A word from its fields -/

/-- Two adjacent slices of a word are one slice. -/
theorem append_slices {n : Nat} (w : BitVec n) (k m l : Nat) :
    w.extractLsb' (k + l) m ++ w.extractLsb' k l = w.extractLsb' k (m + l) := by
  ext i hi
  simp only [BitVec.getElem_append, BitVec.getElem_extractLsb']
  split
  · rfl
  · congr 1
    omega

theorem slice_whole (w : Word) : w.extractLsb' 0 16 = w := by simp

theorem immWord_fields (w : Word) : immWord (opField w) (nnnField w) = w :=
  (append_slices w 0 4 12).trans (slice_whole w)

theorem regImmWord_fields (w : Word) : regImmWord (opField w) (xField w) (kkField w) = w :=
  calc regImmWord (opField w) (xField w) (kkField w)
    _ = w.extractLsb' 8 8 ++ w.extractLsb' 0 8 :=
      congrArg (fun a : BitVec 8 => a ++ w.extractLsb' 0 8) (append_slices w 8 4 4)
    _ = w := (append_slices w 0 8 8).trans (slice_whole w)

theorem regRegWord_fields (w : Word) :
    regRegWord (opField w) (xField w) (yField w) (op2Field w) = w :=
  calc regRegWord (opField w) (xField w) (yField w) (op2Field w)
    _ = w.extractLsb' 8 8 ++ w.extractLsb' 4 4 ++ w.extractLsb' 0 4 :=
      congrArg (fun a : BitVec 8 => a ++ w.extractLsb' 4 4 ++ w.extractLsb' 0 4) (append_slices w 8 4 4)
    _ = w.extractLsb' 4 12 ++ w.extractLsb' 0 4 :=
      congrArg (fun a : BitVec 12 => a ++ w.extractLsb' 0 4) (append_slices w 4 8 4)
    _ = w := (append_slices w 0 12 4).trans (slice_whole w)

/-! ### Decoding a word of a known shape -/

@[simp] theorem recognized_none : recognized none = .error .unrecognizedInstruction := rfl
@[simp] theorem recognized_some (i : Instr) : recognized (some i) = .ok i := rfl

theorem decode_immWord {op : BitVec 4} (nnn : BitVec 12) (h : op ∈ immFamilies) :
    decode (immWord op nnn) = recognized (matchImm op nnn) := by
  simp [decode, classify, h, matchShape]

theorem decode_regImmWord {op : BitVec 4} (x : Reg) (kk : Byte) (h : op ∈ regImmFamilies)
    (hn : op ∉ immFamilies) :
    decode (regImmWord op x kk) = recognized (matchRegImm op x kk) := by
  simp [decode, classify, h, hn, matchShape]

theorem decode_regRegWord {op : BitVec 4} (x y : Reg) (op2 : BitVec 4) (h : op ∈ regRegFamilies)
    (hn : op ∉ immFamilies) (hn' : op ∉ regImmFamilies) :
    decode (regRegWord op x y op2) = recognized (matchRegReg op x y op2) := by
  simp [decode, classify, h, hn, hn', matchShape]

/-- The three family lists cover every high nibble (30_encoding.md R95). -/
theorem mem_families (op : BitVec 4) : op ∈ immFamilies ∨ op ∈ regImmFamilies ∨ op ∈ regRegFamilies := by
  revert op; decide

/-- Every word is classified: the decode failure is unreachable (R95). -/
theorem classify_ne_none (w : Word) : classify w ≠ none := by
  simp only [classify]
  have h := mem_families (opField w)
  split_ifs <;> simp_all

/-- A word that is no instruction is rejected as unrecognized (R95, R97). -/
theorem decode_error {w : Word} {e : DecodeError} (h : decode w = .error e) : e = .unrecognizedInstruction := by
  cases hc : classify w with
  | none => exact absurd hc (classify_ne_none w)
  | some sh =>
    cases hm : matchShape sh with
    | none => simpa [decode, hc, hm] using h.symm
    | some i => simp [decode, hc, hm] at h

/-- The bytes of a word give the word back (20_memory.md R62). -/
theorem wordOfBytes_bytesOfWord (w : Word) :
    wordOfBytes (w.extractLsb' 8 8) (w.extractLsb' 0 8) = w :=
  (append_slices w 0 8 8).trans (slice_whole w)

end Sys2Proof
end

