-- ==== Sys2Proof/Laws/State.lean ====
section
/-!
SUPPORT. One lemma per field of `State` for each operation that updates it: what the field holds afterwards. With
them no later proof unfolds a record update.
-/

namespace Sys2Proof.Machine.State

variable (s : State)

/-! ### `setReg` -/

@[simp] theorem setReg_v (x : Reg) (b : Byte) : (s.setReg x b).v = s.v.set x b := rfl
@[simp] theorem setReg_i (x : Reg) (b : Byte) : (s.setReg x b).i = s.i := rfl
@[simp] theorem setReg_pc (x : Reg) (b : Byte) : (s.setReg x b).pc = s.pc := rfl
@[simp] theorem setReg_sp (x : Reg) (b : Byte) : (s.setReg x b).sp = s.sp := rfl
@[simp] theorem setReg_stack (x : Reg) (b : Byte) : (s.setReg x b).stack = s.stack := rfl
@[simp] theorem setReg_dt (x : Reg) (b : Byte) : (s.setReg x b).dt = s.dt := rfl
@[simp] theorem setReg_st (x : Reg) (b : Byte) : (s.setReg x b).st = s.st := rfl
@[simp] theorem setReg_mem (x : Reg) (b : Byte) : (s.setReg x b).mem = s.mem := rfl
@[simp] theorem setReg_display (x : Reg) (b : Byte) : (s.setReg x b).display = s.display := rfl
@[simp] theorem setReg_keys (x : Reg) (b : Byte) : (s.setReg x b).keys = s.keys := rfl
@[simp] theorem setReg_legacy (x : Reg) (b : Byte) : (s.setReg x b).legacy = s.legacy := rfl
@[simp] theorem setReg_font (x : Reg) (b : Byte) : (s.setReg x b).font = s.font := rfl
@[simp] theorem setReg_run (x : Reg) (b : Byte) : (s.setReg x b).run = s.run := rfl
@[simp] theorem setReg_wait (x : Reg) (b : Byte) : (s.setReg x b).wait = s.wait := rfl
@[simp] theorem setReg_fault (x : Reg) (b : Byte) : (s.setReg x b).fault = s.fault := rfl
@[simp] theorem setReg_stopReq (x : Reg) (b : Byte) : (s.setReg x b).stopReq = s.stopReq := rfl
@[simp] theorem setReg_agenda (x : Reg) (b : Byte) : (s.setReg x b).agenda = s.agenda := rfl
@[simp] theorem setReg_out (x : Reg) (b : Byte) : (s.setReg x b).out = s.out := rfl
@[simp] theorem setReg_draws (x : Reg) (b : Byte) : (s.setReg x b).draws = s.draws := rfl

/-! ### `setRegThenFlag` -/

@[simp] theorem setRegThenFlag_v (x : Reg) (b f : Byte) : (s.setRegThenFlag x b f).v = (s.v.set x b).set flagReg f := rfl
@[simp] theorem setRegThenFlag_i (x : Reg) (b f : Byte) : (s.setRegThenFlag x b f).i = s.i := rfl
@[simp] theorem setRegThenFlag_pc (x : Reg) (b f : Byte) : (s.setRegThenFlag x b f).pc = s.pc := rfl
@[simp] theorem setRegThenFlag_sp (x : Reg) (b f : Byte) : (s.setRegThenFlag x b f).sp = s.sp := rfl
@[simp] theorem setRegThenFlag_stack (x : Reg) (b f : Byte) : (s.setRegThenFlag x b f).stack = s.stack := rfl
@[simp] theorem setRegThenFlag_dt (x : Reg) (b f : Byte) : (s.setRegThenFlag x b f).dt = s.dt := rfl
@[simp] theorem setRegThenFlag_st (x : Reg) (b f : Byte) : (s.setRegThenFlag x b f).st = s.st := rfl
@[simp] theorem setRegThenFlag_mem (x : Reg) (b f : Byte) : (s.setRegThenFlag x b f).mem = s.mem := rfl
@[simp] theorem setRegThenFlag_display (x : Reg) (b f : Byte) : (s.setRegThenFlag x b f).display = s.display := rfl
@[simp] theorem setRegThenFlag_keys (x : Reg) (b f : Byte) : (s.setRegThenFlag x b f).keys = s.keys := rfl
@[simp] theorem setRegThenFlag_legacy (x : Reg) (b f : Byte) : (s.setRegThenFlag x b f).legacy = s.legacy := rfl
@[simp] theorem setRegThenFlag_font (x : Reg) (b f : Byte) : (s.setRegThenFlag x b f).font = s.font := rfl
@[simp] theorem setRegThenFlag_run (x : Reg) (b f : Byte) : (s.setRegThenFlag x b f).run = s.run := rfl
@[simp] theorem setRegThenFlag_wait (x : Reg) (b f : Byte) : (s.setRegThenFlag x b f).wait = s.wait := rfl
@[simp] theorem setRegThenFlag_fault (x : Reg) (b f : Byte) : (s.setRegThenFlag x b f).fault = s.fault := rfl
@[simp] theorem setRegThenFlag_stopReq (x : Reg) (b f : Byte) : (s.setRegThenFlag x b f).stopReq = s.stopReq := rfl
@[simp] theorem setRegThenFlag_agenda (x : Reg) (b f : Byte) : (s.setRegThenFlag x b f).agenda = s.agenda := rfl
@[simp] theorem setRegThenFlag_out (x : Reg) (b f : Byte) : (s.setRegThenFlag x b f).out = s.out := rfl
@[simp] theorem setRegThenFlag_draws (x : Reg) (b f : Byte) : (s.setRegThenFlag x b f).draws = s.draws := rfl

/-! ### `setRegs` -/

@[simp] theorem setRegs_v (bs : List Byte) : (s.setRegs bs).v = regsWithBytes s.v 0 bs := rfl
@[simp] theorem setRegs_i (bs : List Byte) : (s.setRegs bs).i = s.i := rfl
@[simp] theorem setRegs_pc (bs : List Byte) : (s.setRegs bs).pc = s.pc := rfl
@[simp] theorem setRegs_sp (bs : List Byte) : (s.setRegs bs).sp = s.sp := rfl
@[simp] theorem setRegs_stack (bs : List Byte) : (s.setRegs bs).stack = s.stack := rfl
@[simp] theorem setRegs_dt (bs : List Byte) : (s.setRegs bs).dt = s.dt := rfl
@[simp] theorem setRegs_st (bs : List Byte) : (s.setRegs bs).st = s.st := rfl
@[simp] theorem setRegs_mem (bs : List Byte) : (s.setRegs bs).mem = s.mem := rfl
@[simp] theorem setRegs_display (bs : List Byte) : (s.setRegs bs).display = s.display := rfl
@[simp] theorem setRegs_keys (bs : List Byte) : (s.setRegs bs).keys = s.keys := rfl
@[simp] theorem setRegs_legacy (bs : List Byte) : (s.setRegs bs).legacy = s.legacy := rfl
@[simp] theorem setRegs_font (bs : List Byte) : (s.setRegs bs).font = s.font := rfl
@[simp] theorem setRegs_run (bs : List Byte) : (s.setRegs bs).run = s.run := rfl
@[simp] theorem setRegs_wait (bs : List Byte) : (s.setRegs bs).wait = s.wait := rfl
@[simp] theorem setRegs_fault (bs : List Byte) : (s.setRegs bs).fault = s.fault := rfl
@[simp] theorem setRegs_stopReq (bs : List Byte) : (s.setRegs bs).stopReq = s.stopReq := rfl
@[simp] theorem setRegs_agenda (bs : List Byte) : (s.setRegs bs).agenda = s.agenda := rfl
@[simp] theorem setRegs_out (bs : List Byte) : (s.setRegs bs).out = s.out := rfl
@[simp] theorem setRegs_draws (bs : List Byte) : (s.setRegs bs).draws = s.draws := rfl

/-! ### `setIndex` -/

@[simp] theorem setIndex_v (w : Word) : (s.setIndex w).v = s.v := rfl
@[simp] theorem setIndex_i (w : Word) : (s.setIndex w).i = w := rfl
@[simp] theorem setIndex_pc (w : Word) : (s.setIndex w).pc = s.pc := rfl
@[simp] theorem setIndex_sp (w : Word) : (s.setIndex w).sp = s.sp := rfl
@[simp] theorem setIndex_stack (w : Word) : (s.setIndex w).stack = s.stack := rfl
@[simp] theorem setIndex_dt (w : Word) : (s.setIndex w).dt = s.dt := rfl
@[simp] theorem setIndex_st (w : Word) : (s.setIndex w).st = s.st := rfl
@[simp] theorem setIndex_mem (w : Word) : (s.setIndex w).mem = s.mem := rfl
@[simp] theorem setIndex_display (w : Word) : (s.setIndex w).display = s.display := rfl
@[simp] theorem setIndex_keys (w : Word) : (s.setIndex w).keys = s.keys := rfl
@[simp] theorem setIndex_legacy (w : Word) : (s.setIndex w).legacy = s.legacy := rfl
@[simp] theorem setIndex_font (w : Word) : (s.setIndex w).font = s.font := rfl
@[simp] theorem setIndex_run (w : Word) : (s.setIndex w).run = s.run := rfl
@[simp] theorem setIndex_wait (w : Word) : (s.setIndex w).wait = s.wait := rfl
@[simp] theorem setIndex_fault (w : Word) : (s.setIndex w).fault = s.fault := rfl
@[simp] theorem setIndex_stopReq (w : Word) : (s.setIndex w).stopReq = s.stopReq := rfl
@[simp] theorem setIndex_agenda (w : Word) : (s.setIndex w).agenda = s.agenda := rfl
@[simp] theorem setIndex_out (w : Word) : (s.setIndex w).out = s.out := rfl
@[simp] theorem setIndex_draws (w : Word) : (s.setIndex w).draws = s.draws := rfl

/-! ### `setPc` -/

@[simp] theorem setPc_v (w : Word) : (s.setPc w).v = s.v := rfl
@[simp] theorem setPc_i (w : Word) : (s.setPc w).i = s.i := rfl
@[simp] theorem setPc_pc (w : Word) : (s.setPc w).pc = w := rfl
@[simp] theorem setPc_sp (w : Word) : (s.setPc w).sp = s.sp := rfl
@[simp] theorem setPc_stack (w : Word) : (s.setPc w).stack = s.stack := rfl
@[simp] theorem setPc_dt (w : Word) : (s.setPc w).dt = s.dt := rfl
@[simp] theorem setPc_st (w : Word) : (s.setPc w).st = s.st := rfl
@[simp] theorem setPc_mem (w : Word) : (s.setPc w).mem = s.mem := rfl
@[simp] theorem setPc_display (w : Word) : (s.setPc w).display = s.display := rfl
@[simp] theorem setPc_keys (w : Word) : (s.setPc w).keys = s.keys := rfl
@[simp] theorem setPc_legacy (w : Word) : (s.setPc w).legacy = s.legacy := rfl
@[simp] theorem setPc_font (w : Word) : (s.setPc w).font = s.font := rfl
@[simp] theorem setPc_run (w : Word) : (s.setPc w).run = s.run := rfl
@[simp] theorem setPc_wait (w : Word) : (s.setPc w).wait = s.wait := rfl
@[simp] theorem setPc_fault (w : Word) : (s.setPc w).fault = s.fault := rfl
@[simp] theorem setPc_stopReq (w : Word) : (s.setPc w).stopReq = s.stopReq := rfl
@[simp] theorem setPc_agenda (w : Word) : (s.setPc w).agenda = s.agenda := rfl
@[simp] theorem setPc_out (w : Word) : (s.setPc w).out = s.out := rfl
@[simp] theorem setPc_draws (w : Word) : (s.setPc w).draws = s.draws := rfl

/-! ### `preIncrement` -/

@[simp] theorem preIncrement_v : (s.preIncrement).v = s.v := rfl
@[simp] theorem preIncrement_i : (s.preIncrement).i = s.i := rfl
@[simp] theorem preIncrement_pc : (s.preIncrement).pc = s.pc + 2 := rfl
@[simp] theorem preIncrement_sp : (s.preIncrement).sp = s.sp := rfl
@[simp] theorem preIncrement_stack : (s.preIncrement).stack = s.stack := rfl
@[simp] theorem preIncrement_dt : (s.preIncrement).dt = s.dt := rfl
@[simp] theorem preIncrement_st : (s.preIncrement).st = s.st := rfl
@[simp] theorem preIncrement_mem : (s.preIncrement).mem = s.mem := rfl
@[simp] theorem preIncrement_display : (s.preIncrement).display = s.display := rfl
@[simp] theorem preIncrement_keys : (s.preIncrement).keys = s.keys := rfl
@[simp] theorem preIncrement_legacy : (s.preIncrement).legacy = s.legacy := rfl
@[simp] theorem preIncrement_font : (s.preIncrement).font = s.font := rfl
@[simp] theorem preIncrement_run : (s.preIncrement).run = s.run := rfl
@[simp] theorem preIncrement_wait : (s.preIncrement).wait = s.wait := rfl
@[simp] theorem preIncrement_fault : (s.preIncrement).fault = s.fault := rfl
@[simp] theorem preIncrement_stopReq : (s.preIncrement).stopReq = s.stopReq := rfl
@[simp] theorem preIncrement_agenda : (s.preIncrement).agenda = s.agenda := rfl
@[simp] theorem preIncrement_out : (s.preIncrement).out = s.out := rfl
@[simp] theorem preIncrement_draws : (s.preIncrement).draws = s.draws := rfl

/-! ### `raise` -/

@[simp] theorem raise_v (c : Cause) (w a : Option Word) : (s.raise c w a).v = s.v := rfl
@[simp] theorem raise_i (c : Cause) (w a : Option Word) : (s.raise c w a).i = s.i := rfl
@[simp] theorem raise_pc (c : Cause) (w a : Option Word) : (s.raise c w a).pc = s.pc := rfl
@[simp] theorem raise_sp (c : Cause) (w a : Option Word) : (s.raise c w a).sp = s.sp := rfl
@[simp] theorem raise_stack (c : Cause) (w a : Option Word) : (s.raise c w a).stack = s.stack := rfl
@[simp] theorem raise_dt (c : Cause) (w a : Option Word) : (s.raise c w a).dt = s.dt := rfl
@[simp] theorem raise_st (c : Cause) (w a : Option Word) : (s.raise c w a).st = s.st := rfl
@[simp] theorem raise_mem (c : Cause) (w a : Option Word) : (s.raise c w a).mem = s.mem := rfl
@[simp] theorem raise_display (c : Cause) (w a : Option Word) : (s.raise c w a).display = s.display := rfl
@[simp] theorem raise_keys (c : Cause) (w a : Option Word) : (s.raise c w a).keys = s.keys := rfl
@[simp] theorem raise_legacy (c : Cause) (w a : Option Word) : (s.raise c w a).legacy = s.legacy := rfl
@[simp] theorem raise_font (c : Cause) (w a : Option Word) : (s.raise c w a).font = s.font := rfl
@[simp] theorem raise_run (c : Cause) (w a : Option Word) : (s.raise c w a).run = .faulted := rfl
@[simp] theorem raise_wait (c : Cause) (w a : Option Word) : (s.raise c w a).wait = s.wait := rfl
@[simp] theorem raise_fault (c : Cause) (w a : Option Word) : (s.raise c w a).fault = some ⟨c, w, a⟩ := rfl
@[simp] theorem raise_stopReq (c : Cause) (w a : Option Word) : (s.raise c w a).stopReq = s.stopReq := rfl
@[simp] theorem raise_agenda (c : Cause) (w a : Option Word) : (s.raise c w a).agenda = s.agenda := rfl
@[simp] theorem raise_out (c : Cause) (w a : Option Word) : (s.raise c w a).out = s.out := rfl
@[simp] theorem raise_draws (c : Cause) (w a : Option Word) : (s.raise c w a).draws = s.draws := rfl

/-! ### `setByte` -/

@[simp] theorem setByte_v (a : Nat) (b : Byte) : (s.setByte a b).v = s.v := rfl
@[simp] theorem setByte_i (a : Nat) (b : Byte) : (s.setByte a b).i = s.i := rfl
@[simp] theorem setByte_pc (a : Nat) (b : Byte) : (s.setByte a b).pc = s.pc := rfl
@[simp] theorem setByte_sp (a : Nat) (b : Byte) : (s.setByte a b).sp = s.sp := rfl
@[simp] theorem setByte_stack (a : Nat) (b : Byte) : (s.setByte a b).stack = s.stack := rfl
@[simp] theorem setByte_dt (a : Nat) (b : Byte) : (s.setByte a b).dt = s.dt := rfl
@[simp] theorem setByte_st (a : Nat) (b : Byte) : (s.setByte a b).st = s.st := rfl
@[simp] theorem setByte_mem (a : Nat) (b : Byte) : (s.setByte a b).mem = Memory.write s.font s.mem a b := rfl
@[simp] theorem setByte_display (a : Nat) (b : Byte) : (s.setByte a b).display = s.display := rfl
@[simp] theorem setByte_keys (a : Nat) (b : Byte) : (s.setByte a b).keys = s.keys := rfl
@[simp] theorem setByte_legacy (a : Nat) (b : Byte) : (s.setByte a b).legacy = s.legacy := rfl
@[simp] theorem setByte_font (a : Nat) (b : Byte) : (s.setByte a b).font = s.font := rfl
@[simp] theorem setByte_run (a : Nat) (b : Byte) : (s.setByte a b).run = s.run := rfl
@[simp] theorem setByte_wait (a : Nat) (b : Byte) : (s.setByte a b).wait = s.wait := rfl
@[simp] theorem setByte_fault (a : Nat) (b : Byte) : (s.setByte a b).fault = s.fault := rfl
@[simp] theorem setByte_stopReq (a : Nat) (b : Byte) : (s.setByte a b).stopReq = s.stopReq := rfl
@[simp] theorem setByte_agenda (a : Nat) (b : Byte) : (s.setByte a b).agenda = s.agenda := rfl
@[simp] theorem setByte_out (a : Nat) (b : Byte) : (s.setByte a b).out = s.out := rfl
@[simp] theorem setByte_draws (a : Nat) (b : Byte) : (s.setByte a b).draws = s.draws := rfl

/-! ### `setBytes` -/

@[simp] theorem setBytes_v (a : Nat) (bs : List Byte) : (s.setBytes a bs).v = s.v := rfl
@[simp] theorem setBytes_i (a : Nat) (bs : List Byte) : (s.setBytes a bs).i = s.i := rfl
@[simp] theorem setBytes_pc (a : Nat) (bs : List Byte) : (s.setBytes a bs).pc = s.pc := rfl
@[simp] theorem setBytes_sp (a : Nat) (bs : List Byte) : (s.setBytes a bs).sp = s.sp := rfl
@[simp] theorem setBytes_stack (a : Nat) (bs : List Byte) : (s.setBytes a bs).stack = s.stack := rfl
@[simp] theorem setBytes_dt (a : Nat) (bs : List Byte) : (s.setBytes a bs).dt = s.dt := rfl
@[simp] theorem setBytes_st (a : Nat) (bs : List Byte) : (s.setBytes a bs).st = s.st := rfl
@[simp] theorem setBytes_mem (a : Nat) (bs : List Byte) : (s.setBytes a bs).mem = Memory.writeList s.font s.mem a bs := rfl
@[simp] theorem setBytes_display (a : Nat) (bs : List Byte) : (s.setBytes a bs).display = s.display := rfl
@[simp] theorem setBytes_keys (a : Nat) (bs : List Byte) : (s.setBytes a bs).keys = s.keys := rfl
@[simp] theorem setBytes_legacy (a : Nat) (bs : List Byte) : (s.setBytes a bs).legacy = s.legacy := rfl
@[simp] theorem setBytes_font (a : Nat) (bs : List Byte) : (s.setBytes a bs).font = s.font := rfl
@[simp] theorem setBytes_run (a : Nat) (bs : List Byte) : (s.setBytes a bs).run = s.run := rfl
@[simp] theorem setBytes_wait (a : Nat) (bs : List Byte) : (s.setBytes a bs).wait = s.wait := rfl
@[simp] theorem setBytes_fault (a : Nat) (bs : List Byte) : (s.setBytes a bs).fault = s.fault := rfl
@[simp] theorem setBytes_stopReq (a : Nat) (bs : List Byte) : (s.setBytes a bs).stopReq = s.stopReq := rfl
@[simp] theorem setBytes_agenda (a : Nat) (bs : List Byte) : (s.setBytes a bs).agenda = s.agenda := rfl
@[simp] theorem setBytes_out (a : Nat) (bs : List Byte) : (s.setBytes a bs).out = s.out := rfl
@[simp] theorem setBytes_draws (a : Nat) (bs : List Byte) : (s.setBytes a bs).draws = s.draws := rfl

end Sys2Proof.Machine.State
end

