-- ==== Sys2Proof/Laws/Memory.lean ====
section
/-!
SUPPORT. The laws of memory: what a read gives after a write, what the bounded reads and writes answer, and that
every operation keeps the canonical form.
-/

namespace Sys2Proof.Machine

/-! ### Looking up a listed byte -/

theorem Memory.lookup_insert (m : Memory) (a b : Nat) (c : Byte) :
    Memory.lookup (Memory.insert m a c) b = if b = a then some c else Memory.lookup m b := by
  induction m with
  | nil => simp [Memory.insert, Memory.lookup]
  | cons cell m ih =>
    obtain ⟨k, d⟩ := cell
    simp only [Memory.insert]
    split
    · simp [Memory.lookup]
    · split
      · subst_vars
        simp only [Memory.lookup]
        split <;> rfl
      · simp only [Memory.lookup, ih]
        split <;> split <;> first | rfl | omega

theorem Memory.lookup_erase (m : Memory) (a b : Nat) :
    Memory.lookup (Memory.erase m a) b = if b = a then none else Memory.lookup m b := by
  induction m with
  | nil => simp [Memory.erase, Memory.lookup]
  | cons cell m ih =>
    obtain ⟨k, d⟩ := cell
    simp only [Memory.erase, Memory.lookup]
    split
    · rw [ih]
      split
      · rfl
      · rw [if_neg (by omega)]
    · simp only [Memory.lookup, ih]
      split <;> split <;> first | rfl | omega

/-- A read after a write to the same address gives the byte written; every other address reads as before. -/
theorem Memory.read_write (font : Vector Byte 80) (m : Memory) (a b : Nat) (c : Byte) :
    Memory.read font (Memory.write font m a c) b = if b = a then c else Memory.read font m b := by
  unfold Memory.read Memory.write
  split
  · rw [Memory.lookup_erase]
    split <;> simp_all
  · rw [Memory.lookup_insert]
    split <;> simp

theorem Memory.read_writeList (font : Vector Byte 80) (m : Memory) (a : Nat) (bs : List Byte) (b : Nat) :
    Memory.read font (Memory.writeList font m a bs) b =
      if h : a ≤ b ∧ b < a + bs.length then bs[b - a]'(by omega) else Memory.read font m b := by
  induction bs generalizing m a with
  | nil => simp [Memory.writeList]
  | cons c bs ih =>
    rw [Memory.writeList, ih]
    by_cases h1 : a + 1 ≤ b ∧ b < a + 1 + bs.length
    · have e : b - a = (b - (a + 1)) + 1 := by omega
      have h2 : a ≤ b ∧ b < a + (c :: bs).length := by simp; omega
      rw [dif_pos h1, dif_pos h2]
      simp [e]
    · rw [dif_neg h1, Memory.read_write]
      by_cases h3 : b = a
      · subst h3
        simp
      · have h2 : ¬(a ≤ b ∧ b < a + (c :: bs).length) := by simp; omega
        rw [dif_neg h2, if_neg h3]

/-! ### The machine's memory -/

variable (s : State)

theorem State.byteAt_setByte (a b : Nat) (c : Byte) :
    (s.setByte a c).byteAt b = if b = a then c else s.byteAt b := by
  simp only [State.byteAt, State.setByte_font, State.setByte_mem, Memory.read_write]

theorem State.byteAt_setBytes (a : Nat) (bs : List Byte) (b : Nat) :
    (s.setBytes a bs).byteAt b =
      if h : a ≤ b ∧ b < a + bs.length then bs[b - a]'(by omega) else s.byteAt b := by
  simp only [State.byteAt, State.setBytes_font, State.setBytes_mem, Memory.read_writeList]

@[simp] theorem State.byteAt_setReg (x : Reg) (b : Byte) (a : Nat) : (s.setReg x b).byteAt a = s.byteAt a := rfl
@[simp] theorem State.byteAt_setRegThenFlag (x : Reg) (b f : Byte) (a : Nat) :
    (s.setRegThenFlag x b f).byteAt a = s.byteAt a := rfl
@[simp] theorem State.byteAt_setRegs (bs : List Byte) (a : Nat) : (s.setRegs bs).byteAt a = s.byteAt a := rfl
@[simp] theorem State.byteAt_setIndex (w : Word) (a : Nat) : (s.setIndex w).byteAt a = s.byteAt a := rfl
@[simp] theorem State.byteAt_setPc (w : Word) (a : Nat) : (s.setPc w).byteAt a = s.byteAt a := rfl
@[simp] theorem State.byteAt_preIncrement (a : Nat) : s.preIncrement.byteAt a = s.byteAt a := rfl
@[simp] theorem State.byteAt_raise (c : Cause) (w x : Option Word) (a : Nat) :
    (s.raise c w x).byteAt a = s.byteAt a := rfl

@[simp] theorem State.length_bytesAt (a n : Nat) : (s.bytesAt a n).length = n := by
  induction n generalizing a with
  | zero => rfl
  | succ n ih => simp [State.bytesAt, ih]

@[simp] theorem State.getElem_bytesAt (a n k : Nat) (h : k < (s.bytesAt a n).length) :
    (s.bytesAt a n)[k] = s.byteAt (a + k) := by
  induction n generalizing a k with
  | zero => simp [State.bytesAt] at h
  | succ n ih =>
    cases k with
    | zero => simp [State.bytesAt]
    | succ k => simp [State.bytesAt, ih, Nat.add_comm, Nat.add_left_comm]

/-- A range of at least one byte exists when its last address does (20_memory.md R66). -/
theorem rangeExists_iff (a n : Nat) : rangeExists a n = true ↔ n = 0 ∨ a + n ≤ 0x1000 :=
  decide_eq_true_iff

/-- Everything a bounded read can answer: the bytes, where the whole range exists, and nothing otherwise. -/
theorem State.memRead_cases (a n : Nat) :
    (s.memRead a n = some (s.bytesAt a n) ∧ (n = 0 ∨ a + n ≤ 0x1000)) ∨
      (s.memRead a n = none ∧ n ≠ 0 ∧ 0x1000 < a + n) := by
  unfold State.memRead
  split
  · exact .inl ⟨rfl, (rangeExists_iff a n).1 ‹_›⟩
  · have h := mt (rangeExists_iff a n).2 ‹_›
    exact .inr ⟨rfl, by omega⟩

/-- Everything a bounded write can answer: all bytes written, where the whole range exists, and nothing
otherwise. -/
theorem State.memWrite_cases (a : Nat) (bs : List Byte) :
    (s.memWrite a bs = some (s.setBytes a bs) ∧ (bs.length = 0 ∨ a + bs.length ≤ 0x1000)) ∨
      (s.memWrite a bs = none ∧ bs.length ≠ 0 ∧ 0x1000 < a + bs.length) := by
  unfold State.memWrite
  split
  · exact .inl ⟨rfl, (rangeExists_iff a _).1 ‹_›⟩
  · have h := mt (rangeExists_iff a bs.length).2 ‹_›
    exact .inr ⟨rfl, by omega⟩

/-! ### The canonical form -/

theorem Memory.wfFrom_cons (font : Vector Byte 80) (lo k : Nat) (b : Byte) (m : Memory) :
    Memory.wfFrom font lo ((k, b) :: m) = true ↔
      lo ≤ k ∧ k < 0x1000 ∧ b ≠ Memory.unlisted font k ∧ Memory.wfFrom font (k + 1) m = true := by
  simp only [Memory.wfFrom, Bool.and_eq_true, decide_eq_true_eq, bne_iff_ne, and_assoc]
  exact Iff.rfl

theorem Memory.wfFrom_mono {font : Vector Byte 80} {lo lo' : Nat} {m : Memory} (h : lo' ≤ lo)
    (hm : Memory.wfFrom font lo m = true) : Memory.wfFrom font lo' m = true := by
  cases m with
  | nil => rfl
  | cons cell m =>
    obtain ⟨k, b⟩ := cell
    rw [Memory.wfFrom_cons] at hm ⊢
    exact ⟨by omega, hm.2⟩

theorem Memory.wfFrom_insert {font : Vector Byte 80} {lo a : Nat} {b : Byte} {m : Memory}
    (hm : Memory.wfFrom font lo m = true) (hlo : lo ≤ a) (ha : a < 0x1000)
    (hb : b ≠ Memory.unlisted font a) : Memory.wfFrom font lo (Memory.insert m a b) = true := by
  induction m generalizing lo with
  | nil => exact (Memory.wfFrom_cons ..).2 ⟨hlo, ha, hb, rfl⟩
  | cons cell m ih =>
    obtain ⟨k, c⟩ := cell
    have h := (Memory.wfFrom_cons ..).1 hm
    simp only [Memory.insert]
    split
    · exact (Memory.wfFrom_cons ..).2 ⟨hlo, ha, hb, (Memory.wfFrom_cons ..).2 ⟨by omega, h.2⟩⟩
    · split
      · subst_vars
        exact (Memory.wfFrom_cons ..).2 ⟨hlo, ha, hb, h.2.2.2⟩
      · exact (Memory.wfFrom_cons ..).2 ⟨h.1, h.2.1, h.2.2.1, ih h.2.2.2 (by omega)⟩

theorem Memory.wfFrom_erase {font : Vector Byte 80} {lo : Nat} {m : Memory} (a : Nat)
    (hm : Memory.wfFrom font lo m = true) : Memory.wfFrom font lo (Memory.erase m a) = true := by
  induction m generalizing lo with
  | nil => rfl
  | cons cell m ih =>
    obtain ⟨k, c⟩ := cell
    have h := (Memory.wfFrom_cons ..).1 hm
    simp only [Memory.erase]
    split
    · exact Memory.wfFrom_mono (by omega) (ih h.2.2.2)
    · exact (Memory.wfFrom_cons ..).2 ⟨h.1, h.2.1, h.2.2.1, ih h.2.2.2⟩

/-- Writing one byte keeps the canonical form. -/
theorem Memory.wf_write {font : Vector Byte 80} {m : Memory} {a : Nat} (b : Byte)
    (hm : Memory.wf font m = true) (ha : a < 0x1000) :
    Memory.wf font (Memory.write font m a b) = true := by
  unfold Memory.write
  split
  · exact Memory.wfFrom_erase a hm
  · exact Memory.wfFrom_insert hm (Nat.zero_le a) ha ‹_›

/-- Writing a list of bytes that fits into memory keeps the canonical form. -/
theorem Memory.wf_writeList {font : Vector Byte 80} {m : Memory} {a : Nat} {bs : List Byte}
    (hm : Memory.wf font m = true) (h : bs.length = 0 ∨ a + bs.length ≤ 0x1000) :
    Memory.wf font (Memory.writeList font m a bs) = true := by
  induction bs generalizing m a with
  | nil => exact hm
  | cons b bs ih =>
    simp only [List.length_cons] at h
    exact ih (Memory.wf_write b hm (by omega)) (by omega)

/-- A bounded write keeps the canonical form. -/
theorem State.memWrite_keeps_wf {s t : State} {a : Nat} {bs : List Byte}
    (h : s.memWrite a bs = some t) (hm : Memory.wf s.font s.mem = true) :
    Memory.wf t.font t.mem = true := by
  rcases s.memWrite_cases a bs with ⟨e, hr⟩ | ⟨e, -⟩ <;> rw [e] at h
  · cases h
    exact Memory.wf_writeList hm hr
  · cases h

/-- Reset memory lists nothing and is in canonical form. -/
theorem Memory.wf_construct (legacy : Bool) (font : Vector Byte 80) :
    Memory.wf (State.construct legacy font).font (State.construct legacy font).mem = true := rfl

end Sys2Proof.Machine
end

