-- ==== Sys2Proof/Laws/Registers.lean ====
section
/-!
SUPPORT. What a register holds after each operation that writes registers, and that the other operations leave
the registers alone.
-/

namespace Sys2Proof.Machine

variable (s : State)

/-! ### Reading a register after a write -/

theorem State.reg_setReg (x r : Reg) (b : Byte) :
    (s.setReg x b).reg r = if r = x then b else s.reg r := by
  simp only [State.reg, State.setReg_v, Fin.getElem_fin, Vector.getElem_set, Fin.ext_iff, eq_comm]

@[simp] theorem State.reg_setReg_same (x : Reg) (b : Byte) : (s.setReg x b).reg x = b := by
  simp [State.reg_setReg]

@[simp] theorem State.reg_setReg_ne {x r : Reg} (h : r ≠ x) (b : Byte) :
    (s.setReg x b).reg r = s.reg r := by
  simp [State.reg_setReg, h]

theorem State.reg_setRegThenFlag (x r : Reg) (b f : Byte) :
    (s.setRegThenFlag x b f).reg r =
      if r = flagReg then f else if r = x then b else s.reg r := by
  simp only [State.setRegThenFlag, State.reg_setReg]

/-- A byte of the list reaches the register at its place; the registers before and after the list are kept. -/
theorem getElem_regsWithBytes (v : Vector Byte 16) (k : Nat) (bytes : List Byte) (r : Nat) (hr : r < 16) :
    (regsWithBytes v k bytes)[r] =
      if h : k ≤ r ∧ r < k + bytes.length then bytes[r - k]'(by omega) else v[r] := by
  induction bytes generalizing v k with
  | nil => simp [regsWithBytes]
  | cons b bytes ih =>
    rw [regsWithBytes, ih]
    by_cases h1 : k + 1 ≤ r ∧ r < k + 1 + bytes.length
    · have e : r - k = (r - (k + 1)) + 1 := by omega
      have h2 : k ≤ r ∧ r < k + (b :: bytes).length := by simp; omega
      rw [dif_pos h1, dif_pos h2]
      simp [e]
    · rw [dif_neg h1, Vector.getElem_setIfInBounds]
      by_cases h3 : k = r
      · subst h3
        simp
      · have h2 : ¬(k ≤ r ∧ r < k + (b :: bytes).length) := by simp; omega
        rw [dif_neg h2, if_neg h3]

theorem State.reg_setRegs (bytes : List Byte) (r : Reg) :
    (s.setRegs bytes).reg r =
      if h : r.val < bytes.length then bytes[r.val] else s.reg r := by
  simp [State.reg, getElem_regsWithBytes]

/-! ### Operations that write no register -/

@[simp] theorem State.reg_setPc (w : Word) (r : Reg) : (s.setPc w).reg r = s.reg r := rfl
@[simp] theorem State.reg_preIncrement (r : Reg) : s.preIncrement.reg r = s.reg r := rfl
@[simp] theorem State.reg_setIndex (w : Word) (r : Reg) : (s.setIndex w).reg r = s.reg r := rfl
@[simp] theorem State.reg_setBytes (a : Nat) (bs : List Byte) (r : Reg) :
    (s.setBytes a bs).reg r = s.reg r := rfl
@[simp] theorem State.reg_raise (c : Cause) (w a : Option Word) (r : Reg) :
    (s.raise c w a).reg r = s.reg r := rfl

/-! ### The program counter and the index register -/

/-- A skip is one more increment of 2, or nothing (40_execution_cycle.md R127). -/
theorem State.skipIf_eq (c : Bool) : s.skipIf c = s.setPc (if c then s.pc + 2 else s.pc) := by
  cases c <;> rfl

/-- Legacy mode advances `I`, the other mode does not (43_index_memory.md R194). -/
theorem State.advanceIndex_eq (n : Nat) :
    s.advanceIndex n = s.setIndex (if s.legacy then s.i + BitVec.ofNat 16 n else s.i) := by
  unfold State.advanceIndex
  cases s.legacy <;> rfl

/-! ### Operands -/

theorem length_regsUpTo (x : Reg) : (regsUpTo s x).length = x.val + 1 := by
  simp only [regsUpTo, List.length_take, Vector.length_toList]
  omega

theorem getElem_regsUpTo (x : Reg) (k : Nat) (h : k < (regsUpTo s x).length) :
    (regsUpTo s x)[k] = s.reg ⟨k, by rw [length_regsUpTo] at h; omega⟩ := by
  simp [regsUpTo, State.reg]

@[simp] theorem length_decimalDigits (b : Byte) : (decimalDigits b).length = 3 := rfl

/-- A key operand is in range and is the register's value, or the register's value is above 15. -/
theorem keyOperand_cases (x : Reg) :
    (∃ k : Fin 16, keyOperand s x = some k ∧ (s.reg x).toNat = k.val) ∨
      (keyOperand s x = none ∧ 15 < (s.reg x).toNat) := by
  unfold keyOperand
  split
  · exact .inl ⟨_, rfl, rfl⟩
  · exact .inr ⟨rfl, by omega⟩

/-- A digit operand is in range and is the register's value, or the register's value is above 15. -/
theorem digitOperand_cases (x : Reg) :
    (digitOperand s x = some (s.reg x).toNat ∧ (s.reg x).toNat < 16) ∨
      (digitOperand s x = none ∧ 15 < (s.reg x).toNat) := by
  unfold digitOperand
  split
  · exact .inl ⟨rfl, by assumption⟩
  · exact .inr ⟨rfl, by omega⟩

end Sys2Proof.Machine
end

