-- ==== Sys2Proof/Laws/Ops.lean ====
section
/-!
SUPPORT. One lemma per shared operation that says everything it can answer: the call stack, the raising of a
fatal condition, the display, the keys, the timers, and the fetch.
-/

namespace Sys2Proof.Machine

variable (s : State)

/-! ### Fatal conditions -/

/-- A fatal condition is a next state in which only the pre-increment, the record and the run state are new. -/
theorem raiseIn_eq (i : Instr) (c : Cause) :
    raiseIn i c s =
      .next { s with pc := s.pc + 2, run := .faulted, fault := some ⟨c, some (encode i), some s.pc⟩ } := rfl

/-! ### Call stack -/

/-- Everything a push can answer. -/
theorem State.push_cases (w : Word) :
    (∃ h : s.sp.val < 16, s.push w =
      some { s with stack := s.stack.set s.sp.val w, sp := ⟨s.sp.val + 1, by omega⟩ }) ∨
    (s.push w = none ∧ s.sp.val = 16) := by
  unfold State.push
  split
  · exact .inl ⟨‹_›, rfl⟩
  · exact .inr ⟨rfl, by omega⟩

/-- Everything a pop can answer. -/
theorem State.pop_cases :
    (∃ h : 0 < s.sp.val, s.pop = some (s.stack[s.sp.val - 1],
      { s with stack := s.stack.set (s.sp.val - 1) 0, sp := ⟨s.sp.val - 1, by omega⟩ })) ∨
    (s.pop = none ∧ s.sp.val = 0) := by
  unfold State.pop
  split
  · exact .inl ⟨‹_›, rfl⟩
  · exact .inr ⟨rfl, by omega⟩

/-! ### Display -/

theorem getElem_set_row (d : Display) {i j i' j' : Nat} (hi : i < 32) (hj : j < 64) (hi' : i' < 32)
    (hj' : j' < 64) (p : Bool) :
    (d.set i (d[i].set j p hj) hi)[i'][j'] = if i' = i ∧ j' = j then p else d[i'][j'] := by
  by_cases h : i = i'
  · subst h
    simp [Vector.getElem_set, eq_comm]
  · simp [h, Ne.symm h]

/-- A pixel after one pixel is set; coordinates wrap on both sides. -/
theorem Display.pixel_setPixel (d : Display) (r c r' c' : Nat) (p : Bool) :
    (d.setPixel r c p).pixel r' c' =
      if r' % 32 = r % 32 ∧ c' % 64 = c % 64 then p else d.pixel r' c' :=
  getElem_set_row d _ _ _ _ p

@[simp] theorem Display.pixel_mod (d : Display) (r c : Nat) : d.pixel (r % 32) (c % 64) = d.pixel r c := by
  simp [Display.pixel]

@[simp] theorem Display.pixel_blank (r c : Nat) : Display.blank.pixel r c = false := by
  simp [Display.pixel, Display.blank]

/-- Two displays with the same pixels are the same. -/
theorem Display.ext_pixel {d e : Display} (h : ∀ r c, r < 32 → c < 64 → d.pixel r c = e.pixel r c) : d = e := by
  ext r hr c hc
  have := h r c hr hc
  simpa only [Display.pixel, Nat.mod_eq_of_lt hr, Nat.mod_eq_of_lt hc] using this

/-- One cell of the blit: the cell is XORed, and a lit cell under a lit bit is a collision
(44_display.md R213). -/
theorem blitCell_eq (acc : Display × Bool) (r c : Nat) (bit : Bool) :
    blitCell acc r c bit =
      (acc.1.setPixel r c (acc.1.pixel r c ^^ bit), acc.2 || (acc.1.pixel r c && bit)) := by
  unfold blitCell
  cases acc.1.pixel r c <;> cases bit <;> rfl

/-! ### Keys and timers -/

theorem mem_pressedKeys (keys : Vector Bool 16) (k : Fin 16) : k ∈ pressedKeys keys ↔ keys[k] = true := by
  simp [pressedKeys]

/-- Everything `KEY_PICK` can answer: a pressed key, or nothing where none is pressed
(45_keypad_timers.md R234). -/
theorem pickKey_cases (keys : Vector Bool 16) :
    (∃ k, pickKey keys = some k ∧ keys[k] = true) ∨
      (pickKey keys = none ∧ ∀ k : Fin 16, keys[k] = false) := by
  have hmem := mem_pressedKeys keys
  unfold pickKey
  split
  · rename_i h
    refine .inr ⟨rfl, fun k => ?_⟩
    have := mt (hmem k).2
    simpa [h] using this
  · rename_i k h
    exact .inl ⟨k, rfl, (hmem k).1 (by simp [h])⟩
  · rename_i k rest _ h
    have hlt : Config.keyChoice (k :: rest) % (rest.length + 1) < (k :: rest).length := by
      simpa using Nat.mod_lt _ (Nat.succ_pos _)
    refine .inl ⟨_, rfl, (hmem _).1 ?_⟩
    rw [h, List.getD_eq_getElem _ _ hlt]
    exact List.getElem_mem hlt

theorem countDown_toNat (t : Byte) : (countDown t).toNat = t.toNat - 1 := by
  unfold countDown
  split
  · simp_all
  · rename_i h
    have : t.toNat ≠ 0 := fun h0 => h (BitVec.eq_of_toNat_eq (by simpa using h0))
    have := t.isLt
    rw [BitVec.toNat_sub]
    simp
    omega

/-! ### Fetch and step -/

/-- Everything a fetch can answer: the word at `PC`, where both bytes exist (40_execution_cycle.md R121). -/
theorem fetch_cases :
    (fetch s = some (wordOfBytes (s.byteAt s.pc.toNat) (s.byteAt (s.pc.toNat + 1))) ∧ s.pc.toNat ≤ 0xFFE) ∨
      (fetch s = none ∧ 0xFFE < s.pc.toNat) := by
  unfold fetch
  rcases s.memRead_cases s.pc.toNat 2 with ⟨e, h⟩ | ⟨e, h⟩ <;> rw [e]
  · exact .inl ⟨rfl, by omega⟩
  · exact .inr ⟨rfl, by omega⟩

theorem State.active_iff : s.active = true ↔ s.run = .running ∧ s.wait = none := by
  simp [State.active]

/-- Everything the end of a key wait can be. -/
theorem resolveKeyWait_cases :
    (∃ x k, s.run = .running ∧ s.wait = some x ∧ s.keys[k] = true ∧
      resolveKeyWait s = some { s.setReg x (keyByte k) with wait := none }) ∨
    (resolveKeyWait s = none ∧
      (s.run = .running → ∀ x, s.wait = some x → ∀ k : Fin 16, s.keys[k] = false)) := by
  unfold resolveKeyWait
  split
  · rename_i x k hr hw hk
    refine .inl ⟨x, k, hr, hw, ?_, rfl⟩
    rcases pickKey_cases s.keys with ⟨k', e, hk'⟩ | ⟨e, -⟩ <;> rw [e] at hk
    · cases hk
      exact hk'
    · cases hk
  · rename_i h
    refine .inr ⟨rfl, fun hr x hw => ?_⟩
    rcases pickKey_cases s.keys with ⟨k', e, -⟩ | ⟨-, hn⟩
    · exact absurd e (h x k' hr hw)
    · exact hn

/-- No key wait can end in a machine that is not running, does not wait, or sees no key pressed. -/
theorem resolveKeyWait_eq_none
    (h : s.run ≠ .running ∨ s.wait = none ∨ ∀ k : Fin 16, s.keys[k] = false) : resolveKeyWait s = none := by
  rcases resolveKeyWait_cases s with ⟨x, k, hr, hw, hk, -⟩ | ⟨e, -⟩
  · rcases h with h | h | h
    · exact absurd hr h
    · simp [h] at hw
    · simp [h k] at hk
  · exact e

/-- Where no key wait ends and the machine is not faulted, a step is the next event of the agenda. -/
theorem machineStep_of_agenda {e : Event} {rest : List Event} (hf : s.run ≠ .faulted)
    (hk : resolveKeyWait s = none) (ha : s.agenda = e :: rest) :
    machineStep s = perform e { s with agenda := rest } := by
  simp [machineStep, hf, hk, ha]

/-- Where no key wait ends and the machine is not faulted, a step with no event to come is an instruction step. -/
theorem machineStep_of_no_agenda (hf : s.run ≠ .faulted) (hk : resolveKeyWait s = none) (ha : s.agenda = []) :
    machineStep s = instructionStep s := by
  simp [machineStep, hf, hk, ha]

end Sys2Proof.Machine
end

