-- ==== Sys2Proof/Laws/Display.lean ====
section
/-!
SUPPORT. What the sprite blit does to every pixel and to the collision flag. The cells of one sprite are distinct
(44_display.md R212), so the loop over rows and columns has a value cell by cell.
-/

namespace Sys2Proof.Machine

/-- Which sprite column lands in display column `C` of a sprite drawn at column `c`; 8 and more is none. -/
def columnOffset (c C : Nat) : Nat := (C % 64 + 64 - c % 64) % 64
/-- Which sprite row lands in display row `R` of a sprite drawn at row `r`; past the sprite's height is none. -/
def rowOffset (r R : Nat) : Nat := (R % 32 + 32 - r % 32) % 32

/-- A sprite column and the display column it lands in (44_display.md R212, R214). -/
theorem columnOffset_eq_iff {c C k : Nat} (hk : k < 64) : columnOffset c C = k ↔ C % 64 = (c + k) % 64 := by
  unfold columnOffset; omega

/-- A sprite row and the display row it lands in (R212, R214). -/
theorem rowOffset_eq_iff {r R j : Nat} (hj : j < 32) : rowOffset r R = j ↔ R % 32 = (r + j) % 32 := by
  unfold rowOffset; omega

/-- The pixels after the first `m` columns of one sprite row. -/
theorem blitCells_pixel (acc : Display × Bool) (r c : Nat) (row : Byte) (m : Nat) (hm : m ≤ 64) (R C : Nat) :
    ((List.range m).foldl (fun acc k => blitCell acc r (c + k) (spriteBit row k)) acc).1.pixel R C =
      if R % 32 = r % 32 ∧ columnOffset c C < m then
        (acc.1.pixel R C ^^ spriteBit row (columnOffset c C)) else acc.1.pixel R C := by
  induction m with
  | zero => simp
  | succ m ih =>
    rw [List.range_succ, List.foldl_append, List.foldl_cons, List.foldl_nil, blitCell_eq]
    rw [Display.pixel_setPixel]
    have ih := ih (by omega)
    have hcol := columnOffset_eq_iff (c := c) (C := C) (k := m) (by omega)
    by_cases h : R % 32 = r % 32 ∧ C % 64 = (c + m) % 64
    · have hk : columnOffset c C = m := hcol.2 h.2
      have e : ∀ d : Display, d.pixel r (c + m) = d.pixel R C := fun d => by
        rw [← Display.pixel_mod d r, ← h.1, ← h.2, Display.pixel_mod]
      rw [if_pos h, e, ih, if_neg (by omega), if_pos ⟨h.1, by omega⟩, hk]
    · rw [if_neg h, ih]
      have : (R % 32 = r % 32 ∧ columnOffset c C < m) ↔ (R % 32 = r % 32 ∧ columnOffset c C < m + 1) := by
        constructor
        · rintro ⟨a, b⟩; exact ⟨a, by omega⟩
        · rintro ⟨a, b⟩
          have : columnOffset c C ≠ m := fun hk => h ⟨a, hcol.1 hk⟩
          exact ⟨a, by omega⟩
      simp only [this]

/-- The collision flag after the first `m` columns of one sprite row: the cells are distinct, so each is compared
with the pixel it held before the row (R212, R213). -/
theorem blitCells_collision (acc : Display × Bool) (r c : Nat) (row : Byte) (m : Nat) (hm : m ≤ 64) :
    ((List.range m).foldl (fun acc k => blitCell acc r (c + k) (spriteBit row k)) acc).2 = true ↔
      acc.2 = true ∨ ∃ k < m, acc.1.pixel r (c + k) = true ∧ spriteBit row k = true := by
  induction m with
  | zero => simp
  | succ m ih =>
    have ih := ih (by omega)
    have hp := blitCells_pixel acc r c row m (by omega) r (c + m)
    have hk : columnOffset c (c + m) = m := (columnOffset_eq_iff (by omega)).2 rfl
    rw [if_neg (by omega)] at hp
    rw [List.range_succ, List.foldl_append, List.foldl_cons, List.foldl_nil, blitCell_eq]
    simp only [hp, Bool.or_eq_true, ih, Bool.and_eq_true]
    constructor
    · rintro ((h | ⟨k, hk, h⟩) | h)
      · exact .inl h
      · exact .inr ⟨k, by omega, h⟩
      · exact .inr ⟨m, by omega, h⟩
    · rintro (h | ⟨k, hk, h⟩)
      · exact .inl (.inl h)
      · by_cases e : k = m
        · subst e; exact .inr h
        · exact .inl (.inr ⟨k, by omega, h⟩)

/-- The pixels after one sprite row. -/
theorem blitRow_pixel (acc : Display × Bool) (r c : Nat) (row : Byte) (R C : Nat) :
    (blitRow acc r c row).1.pixel R C =
      if R % 32 = r % 32 ∧ columnOffset c C < 8
      then (acc.1.pixel R C ^^ spriteBit row (columnOffset c C)) else acc.1.pixel R C :=
  blitCells_pixel acc r c row 8 (by decide) R C

/-- The collision flag after one sprite row. -/
theorem blitRow_collision (acc : Display × Bool) (r c : Nat) (row : Byte) :
    (blitRow acc r c row).2 = true ↔
      acc.2 = true ∨ ∃ k < 8, acc.1.pixel r (c + k) = true ∧ spriteBit row k = true :=
  blitCells_collision acc r c row 8 (by decide)

/-- The pixels after a sprite of at most 32 rows: a cell the sprite covers is XORed with its bit, any other is as
before. -/
theorem blitRows_pixel (acc : Display × Bool) (r c : Nat) (rows : List Byte) (hn : rows.length ≤ 32) (R C : Nat) :
    (blitRows acc r c rows).1.pixel R C =
      if h : rowOffset r R < rows.length ∧ columnOffset c C < 8
      then (acc.1.pixel R C ^^ spriteBit rows[rowOffset r R] (columnOffset c C)) else acc.1.pixel R C := by
  induction rows generalizing acc r with
  | nil => simp [blitRows]
  | cons row rows ih =>
    simp only [List.length_cons] at hn
    rw [blitRows, ih _ _ (by omega), blitRow_pixel]
    by_cases hr : R % 32 = r % 32
    · have h0 : rowOffset r R = 0 := (rowOffset_eq_iff (by omega)).2 hr
      have h1 : rowOffset (r + 1) R = 31 := (rowOffset_eq_iff (by omega)).2 (by omega)
      rw [dif_neg (by omega)]
      by_cases hc : columnOffset c C < 8
      · rw [if_pos ⟨hr, hc⟩, dif_pos ⟨by rw [h0]; simp, hc⟩]
        simp [h0]
      · rw [if_neg (by omega), dif_neg (by omega)]
    · have h1 : rowOffset r R = rowOffset (r + 1) R + 1 := by unfold rowOffset; omega
      rw [if_neg (by omega)]
      by_cases h : rowOffset (r + 1) R < rows.length ∧ columnOffset c C < 8
      · rw [dif_pos h, dif_pos ⟨by simp; omega, h.2⟩]
        simp [h1]
      · rw [dif_neg h, dif_neg (by simp only [List.length_cons]; omega)]

/-- The collision flag after a sprite of at most 32 rows: some lit pixel lay under a 1 bit (R213). -/
theorem blitRows_collision (acc : Display × Bool) (r c : Nat) (rows : List Byte) (hn : rows.length ≤ 32) :
    (blitRows acc r c rows).2 = true ↔
      acc.2 = true ∨ ∃ j, ∃ h : j < rows.length, ∃ k < 8,
        acc.1.pixel (r + j) (c + k) = true ∧ spriteBit rows[j] k = true := by
  induction rows generalizing acc r with
  | nil => simp [blitRows]
  | cons row rows ih =>
    simp only [List.length_cons] at hn
    have hp : ∀ j < rows.length, ∀ k, (blitRow acc r c row).1.pixel (r + 1 + j) k = acc.1.pixel (r + (j + 1)) k := by
      intro j hj k
      rw [blitRow_pixel, if_neg (by omega)]
      congr 1; omega
    rw [blitRows, ih _ _ (by omega), blitRow_collision]
    constructor
    · rintro ((h | ⟨k, hk, h⟩) | ⟨j, hj, k, hk, h1, h2⟩)
      · exact .inl h
      · exact .inr ⟨0, by simp, k, hk, h⟩
      · rw [hp j hj] at h1
        exact .inr ⟨j + 1, by simpa using hj, k, hk, h1, h2⟩
    · rintro (h | ⟨j, hj, k, hk, h1, h2⟩)
      · exact .inl (.inl h)
      · cases j with
        | zero => exact .inl (.inr ⟨k, hk, h1, h2⟩)
        | succ j =>
          have hj' : j < rows.length := by simpa using hj
          exact .inr ⟨j, hj', k, hk, by rw [hp j hj']; exact h1, h2⟩
end Sys2Proof.Machine
end

