-- ==== Sys2Proof/Laws/PerInstr.lean ====
section
/-!
SUPPORT. Laws about every instruction as syntax, one lemma per constructor. The family `RowOfEncoding`: the word
of an instruction matches a row of the opcode map (30_encoding.md R96).
-/

namespace Sys2Proof.Laws

/-! ### A word of a shape matches a row that fixes only its opcode fields -/

theorem and_nibble (a : BitVec 4) : a &&& 15#4 = a := BitVec.and_allOnes

theorem and_byte (a : Byte) : a &&& 255#8 = a := BitVec.and_allOnes

theorem regNibble_zero : regNibble 0 = 0#4 := rfl

/-- A row of shape `Imm` fixes the family. -/
theorem admits_immWord (op : BitVec 4) (nnn : BitVec 12) :
    OpcodeRow.admits ⟨0xF000, immWord op 0⟩ (immWord op nnn) = true := by
  have mask : (0xF000 : Word) = immWord 0xF 0 := rfl
  simp only [OpcodeRow.admits, beq_iff_eq, mask]
  unfold immWord
  rw [BitVec.and_append]
  simp [and_nibble]

/-- A row of shape `RegImm` that fixes the family. -/
theorem admits_regImmWord (op : BitVec 4) (x : Reg) (kk : Byte) :
    OpcodeRow.admits ⟨0xF000, regImmWord op 0 0⟩ (regImmWord op x kk) = true := by
  have mask : (0xF000 : Word) = regImmWord 0xF 0 0 := rfl
  simp only [OpcodeRow.admits, beq_iff_eq, mask]
  unfold regImmWord
  rw [BitVec.and_append, BitVec.and_append]
  simp [and_nibble, regNibble_zero]

/-- A row of shape `RegImm` that fixes the family and `kk`. -/
theorem admits_regImmWord_kk (op : BitVec 4) (x : Reg) (kk : Byte) :
    OpcodeRow.admits ⟨0xF0FF, regImmWord op 0 kk⟩ (regImmWord op x kk) = true := by
  have mask : (0xF0FF : Word) = regImmWord 0xF 0 0xFF := rfl
  simp only [OpcodeRow.admits, beq_iff_eq, mask]
  unfold regImmWord
  rw [BitVec.and_append, BitVec.and_append]
  simp [and_nibble, and_byte, regNibble_zero]

/-- A row of shape `RegReg` that fixes the family. -/
theorem admits_regRegWord (op : BitVec 4) (x y : Reg) (op2 : BitVec 4) :
    OpcodeRow.admits ⟨0xF000, regRegWord op 0 0 0⟩ (regRegWord op x y op2) = true := by
  have mask : (0xF000 : Word) = regRegWord 0xF 0 0 0 := rfl
  simp only [OpcodeRow.admits, beq_iff_eq, mask]
  unfold regRegWord
  rw [BitVec.and_append, BitVec.and_append, BitVec.and_append]
  simp [and_nibble, regNibble_zero]

/-- A row of shape `RegReg` that fixes the family and `op2`. -/
theorem admits_regRegWord_op2 (op : BitVec 4) (x y : Reg) (op2 : BitVec 4) :
    OpcodeRow.admits ⟨0xF00F, regRegWord op 0 0 op2⟩ (regRegWord op x y op2) = true := by
  have mask : (0xF00F : Word) = regRegWord 0xF 0 0 0xF := rfl
  simp only [OpcodeRow.admits, beq_iff_eq, mask]
  unfold regRegWord
  rw [BitVec.and_append, BitVec.and_append, BitVec.and_append]
  simp [and_nibble, regNibble_zero]

/-! ### The family -/

/-- The word of the instruction matches a row of the opcode map. -/
def RowOfEncoding.Statement (i : Instr) : Prop := ∃ row ∈ opcodeMap, row.admits (encode i) = true

theorem RowOfEncoding.cls : Statement .cls := ⟨⟨0xFFFF, 0x00E0⟩, by decide, by decide⟩
theorem RowOfEncoding.ret : Statement .ret := ⟨⟨0xFFFF, 0x00EE⟩, by decide, by decide⟩
theorem RowOfEncoding.jp (nnn : BitVec 12) : Statement (.jp nnn) :=
  ⟨⟨0xF000, 0x1000⟩, by decide, admits_immWord 0x1 nnn⟩
theorem RowOfEncoding.call (nnn : BitVec 12) : Statement (.call nnn) :=
  ⟨⟨0xF000, 0x2000⟩, by decide, admits_immWord 0x2 nnn⟩
theorem RowOfEncoding.ldI (nnn : BitVec 12) : Statement (.ldI nnn) :=
  ⟨⟨0xF000, 0xA000⟩, by decide, admits_immWord 0xA nnn⟩
theorem RowOfEncoding.jpV0 (nnn : BitVec 12) : Statement (.jpV0 nnn) :=
  ⟨⟨0xF000, 0xB000⟩, by decide, admits_immWord 0xB nnn⟩
theorem RowOfEncoding.seImm (x : Reg) (kk : Byte) : Statement (.seImm x kk) :=
  ⟨⟨0xF000, 0x3000⟩, by decide, admits_regImmWord 0x3 x kk⟩
theorem RowOfEncoding.sneImm (x : Reg) (kk : Byte) : Statement (.sneImm x kk) :=
  ⟨⟨0xF000, 0x4000⟩, by decide, admits_regImmWord 0x4 x kk⟩
theorem RowOfEncoding.ldImm (x : Reg) (kk : Byte) : Statement (.ldImm x kk) :=
  ⟨⟨0xF000, 0x6000⟩, by decide, admits_regImmWord 0x6 x kk⟩
theorem RowOfEncoding.addImm (x : Reg) (kk : Byte) : Statement (.addImm x kk) :=
  ⟨⟨0xF000, 0x7000⟩, by decide, admits_regImmWord 0x7 x kk⟩
theorem RowOfEncoding.rnd (x : Reg) (kk : Byte) : Statement (.rnd x kk) :=
  ⟨⟨0xF000, 0xC000⟩, by decide, admits_regImmWord 0xC x kk⟩
theorem RowOfEncoding.skp (x : Reg) : Statement (.skp x) :=
  ⟨⟨0xF0FF, 0xE09E⟩, by decide, admits_regImmWord_kk 0xE x 0x9E⟩
theorem RowOfEncoding.sknp (x : Reg) : Statement (.sknp x) :=
  ⟨⟨0xF0FF, 0xE0A1⟩, by decide, admits_regImmWord_kk 0xE x 0xA1⟩
theorem RowOfEncoding.ldVxDT (x : Reg) : Statement (.ldVxDT x) :=
  ⟨⟨0xF0FF, 0xF007⟩, by decide, admits_regImmWord_kk 0xF x 0x07⟩
theorem RowOfEncoding.ldVxK (x : Reg) : Statement (.ldVxK x) :=
  ⟨⟨0xF0FF, 0xF00A⟩, by decide, admits_regImmWord_kk 0xF x 0x0A⟩
theorem RowOfEncoding.ldDTVx (x : Reg) : Statement (.ldDTVx x) :=
  ⟨⟨0xF0FF, 0xF015⟩, by decide, admits_regImmWord_kk 0xF x 0x15⟩
theorem RowOfEncoding.ldSTVx (x : Reg) : Statement (.ldSTVx x) :=
  ⟨⟨0xF0FF, 0xF018⟩, by decide, admits_regImmWord_kk 0xF x 0x18⟩
theorem RowOfEncoding.addI (x : Reg) : Statement (.addI x) :=
  ⟨⟨0xF0FF, 0xF01E⟩, by decide, admits_regImmWord_kk 0xF x 0x1E⟩
theorem RowOfEncoding.ldF (x : Reg) : Statement (.ldF x) :=
  ⟨⟨0xF0FF, 0xF029⟩, by decide, admits_regImmWord_kk 0xF x 0x29⟩
theorem RowOfEncoding.ldB (x : Reg) : Statement (.ldB x) :=
  ⟨⟨0xF0FF, 0xF033⟩, by decide, admits_regImmWord_kk 0xF x 0x33⟩
theorem RowOfEncoding.storeRegs (x : Reg) : Statement (.storeRegs x) :=
  ⟨⟨0xF0FF, 0xF055⟩, by decide, admits_regImmWord_kk 0xF x 0x55⟩
theorem RowOfEncoding.loadRegs (x : Reg) : Statement (.loadRegs x) :=
  ⟨⟨0xF0FF, 0xF065⟩, by decide, admits_regImmWord_kk 0xF x 0x65⟩
theorem RowOfEncoding.seReg (x y : Reg) : Statement (.seReg x y) :=
  ⟨⟨0xF00F, 0x5000⟩, by decide, admits_regRegWord_op2 0x5 x y 0x0⟩
theorem RowOfEncoding.ldReg (x y : Reg) : Statement (.ldReg x y) :=
  ⟨⟨0xF00F, 0x8000⟩, by decide, admits_regRegWord_op2 0x8 x y 0x0⟩
theorem RowOfEncoding.orReg (x y : Reg) : Statement (.orReg x y) :=
  ⟨⟨0xF00F, 0x8001⟩, by decide, admits_regRegWord_op2 0x8 x y 0x1⟩
theorem RowOfEncoding.andReg (x y : Reg) : Statement (.andReg x y) :=
  ⟨⟨0xF00F, 0x8002⟩, by decide, admits_regRegWord_op2 0x8 x y 0x2⟩
theorem RowOfEncoding.xorReg (x y : Reg) : Statement (.xorReg x y) :=
  ⟨⟨0xF00F, 0x8003⟩, by decide, admits_regRegWord_op2 0x8 x y 0x3⟩
theorem RowOfEncoding.addReg (x y : Reg) : Statement (.addReg x y) :=
  ⟨⟨0xF00F, 0x8004⟩, by decide, admits_regRegWord_op2 0x8 x y 0x4⟩
theorem RowOfEncoding.subReg (x y : Reg) : Statement (.subReg x y) :=
  ⟨⟨0xF00F, 0x8005⟩, by decide, admits_regRegWord_op2 0x8 x y 0x5⟩
theorem RowOfEncoding.shr (x y : Reg) : Statement (.shr x y) :=
  ⟨⟨0xF00F, 0x8006⟩, by decide, admits_regRegWord_op2 0x8 x y 0x6⟩
theorem RowOfEncoding.subn (x y : Reg) : Statement (.subn x y) :=
  ⟨⟨0xF00F, 0x8007⟩, by decide, admits_regRegWord_op2 0x8 x y 0x7⟩
theorem RowOfEncoding.shl (x y : Reg) : Statement (.shl x y) :=
  ⟨⟨0xF00F, 0x800E⟩, by decide, admits_regRegWord_op2 0x8 x y 0xE⟩
theorem RowOfEncoding.sneReg (x y : Reg) : Statement (.sneReg x y) :=
  ⟨⟨0xF00F, 0x9000⟩, by decide, admits_regRegWord_op2 0x9 x y 0x0⟩
theorem RowOfEncoding.drw (x y : Reg) (n : Nat) : Statement (.drw x y n) :=
  ⟨⟨0xF000, 0xD000⟩, by decide, admits_regRegWord 0xD x y (BitVec.ofNat 4 n)⟩

end Sys2Proof.Laws
end

