-- ==== Sys2Proof/Tests/Slice0.lean ====
section
/-!
SUPPORT. Tests of the model: the check of `WellFormed`, words written out from the spec's patterns, one step of each
instruction, and for every statement that has hypotheses a state that meets them. The expected results are those of
spec/95_test_vectors.md, named beside each test, or the worked example of the instruction's rule.
-/

namespace Sys2Proof.Tests

open Sys2Proof.Machine

/-! ### Well-formedness -/

theorem test_wf_refuses_sprite_of_16_rows : (Instr.drw 0 0 16).wf = false := by decide
theorem test_wf_accepts_sprite_of_15_rows : (Instr.drw 0 0 15).wf = true := by decide

/-! ### Decoding, from the patterns of 30_encoding.md R96 -/

theorem test_decode_family_0 : decode 0x00E0 = .ok .cls ∧ decode 0x00EE = .ok .ret := by decide
theorem test_decode_family_1 : decode 0x1ABC = .ok (.jp 0xABC) := by decide
theorem test_decode_family_2 : decode 0x2555 = .ok (.call 0x555) := by decide
theorem test_decode_family_3 : decode 0x3455 = .ok (.seImm 4 0x55) := by decide
theorem test_decode_family_4 : decode 0x4455 = .ok (.sneImm 4 0x55) := by decide
theorem test_decode_family_5 : decode 0x5120 = .ok (.seReg 1 2) := by decide
theorem test_decode_family_6 : decode 0x6455 = .ok (.ldImm 4 0x55) := by decide
theorem test_decode_family_7 : decode 0x71FF = .ok (.addImm 1 0xFF) := by decide
theorem test_decode_family_8 :
    decode 0x8540 = .ok (.ldReg 5 4) ∧ decode 0x8121 = .ok (.orReg 1 2) ∧ decode 0x8122 = .ok (.andReg 1 2) ∧
    decode 0x8123 = .ok (.xorReg 1 2) ∧ decode 0x8124 = .ok (.addReg 1 2) ∧ decode 0x8125 = .ok (.subReg 1 2) ∧
    decode 0x8126 = .ok (.shr 1 2) ∧ decode 0x8127 = .ok (.subn 1 2) ∧ decode 0x812E = .ok (.shl 1 2) := by decide
theorem test_decode_family_9 : decode 0x9120 = .ok (.sneReg 1 2) := by decide
theorem test_decode_family_A : decode 0xA300 = .ok (.ldI 0x300) := by decide
theorem test_decode_family_B : decode 0xB300 = .ok (.jpV0 0x300) := by decide
theorem test_decode_family_C : decode 0xC10F = .ok (.rnd 1 0x0F) := by decide
theorem test_decode_family_D : decode 0xD12A = .ok (.drw 1 2 10) ∧ decode 0xD120 = .ok (.drw 1 2 0) := by decide
theorem test_decode_family_E : decode 0xE19E = .ok (.skp 1) ∧ decode 0xE1A1 = .ok (.sknp 1) := by decide
theorem test_decode_family_F :
    decode 0xF207 = .ok (.ldVxDT 2) ∧ decode 0xF30A = .ok (.ldVxK 3) ∧ decode 0xF215 = .ok (.ldDTVx 2) ∧
    decode 0xF218 = .ok (.ldSTVx 2) ∧ decode 0xF21E = .ok (.addI 2) ∧ decode 0xF329 = .ok (.ldF 3) ∧
    decode 0xF033 = .ok (.ldB 0) ∧ decode 0xF155 = .ok (.storeRegs 1) ∧ decode 0xF265 = .ok (.loadRegs 2) := by
  decide

/-- The illegal words of vectors X6 and X7. -/
theorem test_decode_illegal :
    decode 0x0123 = .error .unrecognizedInstruction ∧ decode 0x00E1 = .error .unrecognizedInstruction ∧
    decode 0x5121 = .error .unrecognizedInstruction ∧ decode 0x8128 = .error .unrecognizedInstruction ∧
    decode 0x812F = .error .unrecognizedInstruction ∧ decode 0x9121 = .error .unrecognizedInstruction ∧
    decode 0xE19F = .error .unrecognizedInstruction ∧ decode 0xE1A0 = .error .unrecognizedInstruction ∧
    decode 0xF100 = .error .unrecognizedInstruction ∧ decode 0xF1FF = .error .unrecognizedInstruction ∧
    decode 0xF175 = .error .unrecognizedInstruction := by
  decide

/-- The source's two-instruction program is the bytes 64 55 85 40 (20_memory.md R62). -/
theorem test_fetch_order : decodeBytes 0x64 0x55 = .ok (.ldImm 4 0x55) ∧ bytesOfWord 0x8540 = [0x85, 0x40] := by
  decide

/-! ### States to start from -/

/-- A running machine right after reset. -/
def fresh : State := { State.reset with run := .running }

/-- A running machine with registers set, from a list of (register, byte). -/
def withRegs (rs : List (Reg × Byte)) : State := rs.foldl (fun s p => s.setReg p.1 p.2) fresh

/-- The result is a next state with the property. -/
def nextHas (r : Result) (p : State → Bool) : Bool :=
  match r with
  | .next t => p t
  | .fault _ => false
  | .refused _ => false

/-- The result is a next state, halted with the record. -/
def haltsWithRecord (r : Result) (record : FaultRecord) (pc : Word) : Bool :=
  nextHas r fun t => t.run = .faulted ∧ t.fault = some record ∧ t.pc = pc

/-! ### Arithmetic, logic, shifts, random -/

theorem test_ldImm_A1 : nextHas (exec (.ldImm 15 0xAB) fresh) (fun t => t.reg 15 = 0xAB ∧ t.pc = 0x202) := by decide
theorem test_addImm_A2 : nextHas (exec (.addImm 1 1) (withRegs [(1, 0xFF)])) (fun t => t.reg 1 = 0 ∧ t.reg 15 = 0) := by
  decide
theorem test_ldReg_A32 : nextHas (exec (.ldReg 5 4) (withRegs [(4, 0x55)])) (fun t => t.reg 5 = 0x55) := by decide
theorem test_orReg_A5 : nextHas (exec (.orReg 1 2) (withRegs [(1, 0xF0), (2, 0x3C), (15, 1)]))
    (fun t => t.reg 1 = 0xFC ∧ t.reg 15 = 1) := by decide
theorem test_andReg_A5 : nextHas (exec (.andReg 1 2) (withRegs [(1, 0xF0), (2, 0x3C), (15, 1)]))
    (fun t => t.reg 1 = 0x30 ∧ t.reg 15 = 1) := by decide
theorem test_xorReg_A5 : nextHas (exec (.xorReg 1 2) (withRegs [(1, 0xF0), (2, 0x3C), (15, 1)]))
    (fun t => t.reg 1 = 0xCC ∧ t.reg 15 = 1) := by decide
theorem test_addReg_A10 : nextHas (exec (.addReg 15 1) (withRegs [(15, 0xFF), (1, 1)])) (fun t => t.reg 15 = 1) := by
  decide
theorem test_addReg_A11 : nextHas (exec (.addReg 1 15) (withRegs [(15, 5), (1, 1)]))
    (fun t => t.reg 1 = 6 ∧ t.reg 15 = 0) := by decide
theorem test_subReg_A14 : nextHas (exec (.subReg 1 2) (withRegs [(1, 7), (2, 7)]))
    (fun t => t.reg 1 = 0 ∧ t.reg 15 = 1) := by decide
theorem test_subReg_A16 : nextHas (exec (.subReg 15 1) (withRegs [(15, 3), (1, 5)])) (fun t => t.reg 15 = 0) := by decide
theorem test_shr_A20 : nextHas (exec (.shr 1 2) (withRegs [(1, 0x05), (2, 0x82)]))
    (fun t => t.reg 1 = 0x02 ∧ t.reg 15 = 1 ∧ t.reg 2 = 0x82) := by decide
theorem test_shr_A21 : nextHas (exec (.shr 1 2) { withRegs [(1, 0x05), (2, 0x82)] with legacy := true })
    (fun t => t.reg 1 = 0x41 ∧ t.reg 15 = 0 ∧ t.reg 2 = 0x82) := by decide
theorem test_subn_A18 : nextHas (exec (.subn 1 2) (withRegs [(1, 5), (2, 3)]))
    (fun t => t.reg 1 = 0xFE ∧ t.reg 15 = 0) := by decide
theorem test_shl_A25 : nextHas (exec (.shl 1 2) (withRegs [(1, 0x81), (2, 0x40)]))
    (fun t => t.reg 1 = 0x02 ∧ t.reg 15 = 1) := by decide
theorem test_shl_A26 : nextHas (exec (.shl 1 2) { withRegs [(1, 0x81), (2, 0x40)] with legacy := true })
    (fun t => t.reg 1 = 0x80 ∧ t.reg 15 = 0) := by decide

/-- Vector A30: whatever byte is drawn, a mask of 0 gives 0. -/
theorem test_rnd_A30 : ∃ t, exec (.rnd 1 0) fresh = .next t ∧ t.reg 1 = 0 :=
  ⟨_, rfl, BitVec.and_zero⟩

/-! ### Control flow -/

theorem test_ret_F7 : nextHas
    (exec .ret { fresh with sp := 2, stack := (fresh.stack.set 0 0x206).set 1 0x30A, pc := 0x500 })
    (fun t => t.pc = 0x30A ∧ t.sp = 1 ∧ t.stack[1] = 0 ∧ t.stack[0] = 0x206) := by decide
theorem test_ret_S4 : haltsWithRecord (exec .ret { fresh with pc := 0x300 }) ⟨.stackUnderflow, some 0x00EE, some 0x300⟩
    0x302 := by decide
theorem test_jp_F2 : nextHas (exec (.jp 0x201) fresh) (fun t => t.pc = 0x201) := by decide
theorem test_call_F5 : nextHas (exec (.call 0x600) { fresh with pc := 0x400, sp := 15 })
    (fun t => t.stack[15] = 0x402 ∧ t.sp = 16 ∧ t.pc = 0x600) := by decide
theorem test_call_F6 : haltsWithRecord (exec (.call 0x600) { fresh with pc := 0x400, sp := 16 })
    ⟨.stackOverflow, some 0x2600, some 0x400⟩ 0x402 := by decide
theorem test_seImm_S5 : nextHas (exec (.seImm 4 0x55) (withRegs [(4, 0x55)])) (fun t => t.pc = 0x204) := by decide
theorem test_sneImm_F10 : nextHas (exec (.sneImm 4 0x55) (withRegs [(4, 0x55)])) (fun t => t.pc = 0x202) := by decide
theorem test_seReg_F14 : nextHas (exec (.seReg 1 2) (withRegs [(1, 7), (2, 8)])) (fun t => t.pc = 0x202) := by decide
theorem test_sneReg_F14 : nextHas (exec (.sneReg 1 2) (withRegs [(1, 7), (2, 8)])) (fun t => t.pc = 0x204) := by decide
theorem test_jpV0_F16 : nextHas (exec (.jpV0 0xFFF) (withRegs [(0, 0xFF)])) (fun t => t.pc = 0x10FE) := by decide

/-! ### Index register and memory -/

theorem test_ldI_M1 : nextHas (exec (.ldI 0xFFF) fresh) (fun t => t.i = 0xFFF) := by decide
theorem test_addI_M4 : nextHas (exec (.addI 2) { withRegs [(2, 1)] with i := 0xFFFF }) (fun t => t.i = 0) := by decide
theorem test_addI_M3 : nextHas (exec (.addI 2) { withRegs [(2, 1)] with i := 0x0FFF })
    (fun t => t.i = 0x1000 ∧ t.reg 15 = 0) := by decide
theorem test_ldF_M5 : nextHas (exec (.ldF 3) (withRegs [(3, 0x0A)])) (fun t => t.i = 0x32) := by decide
theorem test_ldF_M7 : haltsWithRecord (exec (.ldF 3) { withRegs [(3, 0x10)] with pc := 0x300 })
    ⟨.digitOutOfRange, some 0xF329, some 0x300⟩ 0x302 := by decide
theorem test_ldB_M9 : nextHas (exec (.ldB 0) { withRegs [(0, 123)] with i := 0xFFD })
    (fun t => t.byteAt 0xFFD = 1 ∧ t.byteAt 0xFFE = 2 ∧ t.byteAt 0xFFF = 3) := by decide
theorem test_ldB_M10 : haltsWithRecord (exec (.ldB 0) { withRegs [(0, 123)] with i := 0xFFE, pc := 0x300 })
    ⟨.memoryOutOfBounds, some 0xF033, some 0x300⟩ 0x302 := by decide
theorem test_storeRegs_M12 : nextHas
    (exec (.storeRegs 1) { withRegs [(0, 0xAA), (1, 0xBB), (2, 0xCC)] with i := 0x400, legacy := true })
    (fun t => t.byteAt 0x400 = 0xAA ∧ t.byteAt 0x401 = 0xBB ∧ t.byteAt 0x402 = 0 ∧ t.i = 0x402) := by decide
theorem test_storeRegs_M14 : haltsWithRecord (exec (.storeRegs 15) { fresh with i := 0xFF1, pc := 0x300 })
    ⟨.memoryOutOfBounds, some 0xFF55, some 0x300⟩ 0x302 := by decide
theorem test_loadRegs_M15 : nextHas
    (exec (.loadRegs 2) (State.setBytes { withRegs [(3, 0x77)] with i := 0x300 } 0x300 [1, 9, 7]))
    (fun t => t.reg 0 = 1 ∧ t.reg 1 = 9 ∧ t.reg 2 = 7 ∧ t.reg 3 = 0x77 ∧ t.i = 0x300) := by decide
theorem test_loadRegs_M18 : haltsWithRecord (exec (.loadRegs 0) { fresh with i := 0x1000, pc := 0x300 })
    ⟨.memoryOutOfBounds, some 0xF065, some 0x300⟩ 0x302 := by decide

/-- The canonical form: a byte written back to its reset contents is listed no more. -/
theorem test_memory_canonical : ((fresh.setByte 0x300 7).setByte 0x300 0).mem = [] := by decide

/-- Glyph 0xA of the default font (20_memory.md R61). -/
theorem test_font_glyph_A :
    (State.reset).bytesAt 0x32 5 = [0xF0, 0x90, 0xF0, 0x90, 0x90] := by decide

/-! ### Display -/

/-- The lit cells of the rows and columns asked for. -/
def lit (d : Display) (rows cols : List Nat) : List (Nat × Nat) :=
  (rows.flatMap fun r => cols.map fun c => (r, c)).filter fun p => d.pixel p.1 p.2

theorem test_cls_G1 : nextHas (exec .cls { fresh with display := (fresh.display.setPixel 3 3 true).setPixel 10 40 true })
    (fun t => t.display.pixel 3 3 = false ∧ t.display.pixel 10 40 = false) := by decide
theorem test_drw_G2 : nextHas
    (exec (.drw 0 1 1) (State.setBytes { withRegs [(0, 60)] with i := 0x300 } 0x300 [0xFF]))
    (fun t => lit t.display [0, 1] (List.range 64) =
      [(0, 0), (0, 1), (0, 2), (0, 3), (0, 60), (0, 61), (0, 62), (0, 63)] ∧ t.reg 15 = 0) := by decide
theorem test_drw_G6 : nextHas
    (exec (.drw 0 1 1)
      (State.setBytes { fresh with i := 0x300, display := fresh.display.setPixel 0 0 true } 0x300 [0xC0]))
    (fun t => t.display.pixel 0 0 = false ∧ t.display.pixel 0 1 = true ∧ t.reg 15 = 1) := by decide

/-- Vector G9: a height of 0. -/
theorem test_drw_G9 : haltsWithRecord (exec (.drw 0 1 0) { fresh with pc := 0x300 })
    ⟨.badSpriteHeight, some 0xD010, some 0x300⟩ 0x302 := by decide

/-- Source example S8: the sprite wraps at both edges. -/
theorem test_drw_S8 : nextHas
    (exec (.drw 0 1 2) (State.setBytes { withRegs [(0, 63), (1, 31)] with i := 0x300 } 0x300 [0xFF, 0xFF]))
    (fun t => lit t.display [30, 31, 0, 1] [62, 63, 0, 6, 7] =
      [(31, 63), (31, 0), (31, 6), (0, 63), (0, 0), (0, 6)]) := by decide

/-! ### Keypad and timers -/

theorem test_skp_K4 : nextHas (exec (.skp 1) { withRegs [(1, 0x0F)] with keys := fresh.keys.set 15 true })
    (fun t => t.pc = 0x204) := by decide
theorem test_skp_K3 : haltsWithRecord (exec (.skp 1) (withRegs [(1, 0x10)]))
    ⟨.keyIndexOutOfRange, some 0xE19E, some 0x200⟩ 0x202 := by decide
theorem test_sknp_K2 : nextHas (exec (.sknp 1) (withRegs [(1, 0x0A)])) (fun t => t.pc = 0x204) := by decide
theorem test_sknp_K3 : haltsWithRecord (exec (.sknp 1) (withRegs [(1, 0x10)]))
    ⟨.keyIndexOutOfRange, some 0xE1A1, some 0x200⟩ 0x202 := by decide
theorem test_ldVxK_K5 : nextHas (exec (.ldVxK 3) { fresh with keys := fresh.keys.set 7 true })
    (fun t => t.reg 3 = 7 ∧ t.pc = 0x202 ∧ t.wait = none) := by decide
theorem test_ldVxK_K6 : nextHas (exec (.ldVxK 3) fresh) (fun t => t.wait = some 3 ∧ t.pc = 0x202) := by decide
theorem test_ldVxDT_K8 : nextHas (exec (.ldVxDT 2) { fresh with dt := 0x3C }) (fun t => t.reg 2 = 0x3C) := by decide
theorem test_ldDTVx_K9 : nextHas (exec (.ldDTVx 2) (withRegs [(2, 0x3C)])) (fun t => t.dt = 0x3C ∧ t.st = 0) := by decide
theorem test_ldSTVx_K9 : nextHas (exec (.ldSTVx 2) (withRegs [(2, 0x3C)])) (fun t => t.st = 0x3C ∧ t.dt = 0) := by decide

/-! ### Steps of the machine -/

/-- The codes of the table of R251, in its order. -/
theorem test_cause_codes :
    [Cause.decodeFailure, .unrecognizedInstruction, .stackOverflow, .stackUnderflow, .keyIndexOutOfRange,
      .digitOutOfRange, .badSpriteHeight, .memoryOutOfBounds, .programTooLarge].map Cause.code =
      [1, 2, 3, 4, 5, 6, 7, 8, 9] := by decide

/-- Vector X1. -/
theorem test_step_X1 : haltsWithRecord (step fresh) ⟨.unrecognizedInstruction, some 0x0000, some 0x200⟩ 0x202 := by decide

/-- Vectors X4 and X5: the fetch fault leaves `PC`. -/
theorem test_step_X4_X5 :
    haltsWithRecord (step { fresh with pc := 0x1000 }) ⟨.memoryOutOfBounds, none, some 0x1000⟩ 0x1000 ∧
    haltsWithRecord (step { fresh with pc := 0xFFF }) ⟨.memoryOutOfBounds, none, some 0xFFF⟩ 0xFFF := by decide

/-- Vector X2: an odd `PC`. -/
theorem test_step_X2 : nextHas (step (State.setBytes { fresh with pc := 0x201 } 0x201 [0x62, 0x07]))
    (fun t => t.reg 2 = 7 ∧ t.pc = 0x203) := by decide

/-- Vectors T1 and T2, and the stop of vector T6. -/
theorem test_step_frameTick : nextHas
    (step { fresh with dt := 1, st := 2, stopReq := true, agenda := [.frameTick] })
    (fun t => t.dt = 0 ∧ t.st = 1 ∧ t.out = [.tone, .render fresh.display] ∧ t.run = .stopped ∧ t.stopReq = false) := by
  decide

/-- Vector K6: the host presses key 3 during the wait; the event sets the keys and the wait still stands. -/
theorem test_step_setKeys : nextHas
    (step { fresh with wait := some 3, agenda := [.host (.setKeys (fresh.keys.set 3 true))] })
    (fun t => t.keys = fresh.keys.set 3 true ∧ t.wait = some 3 ∧ t.agenda = []) := by decide

/-- A stopped machine is loaded and run (70_reset_and_hazards.md R303). -/
theorem test_step_load_and_run : nextHas
    (step { State.reset with agenda := [.host (.load [0x64, 0x55]), .host .run] })
    (fun t => t.bytesAt 0x200 3 = [0x64, 0x55, 0] ∧ nextHas (step t) (fun u => u.run = .running ∧ u.pc = 0x200)) := by
  decide

/-- Vector K6: the pressed key ends the wait before the frame tick. -/
theorem test_step_resolves_K6 : nextHas
    (step { fresh with wait := some 3, keys := fresh.keys.set 3 true, dt := 5, agenda := [.frameTick] })
    (fun t => t.reg 3 = 3 ∧ t.wait = none ∧ t.dt = 5 ∧ t.agenda = [.frameTick]) := by decide

/-- Vector T8: a faulted machine. -/
theorem test_step_faulted : step { fresh with run := .faulted } = .fault (.halted none) := rfl

/-- An instruction placed after reset is the first to run. -/
theorem test_withFetchWord : nextHas (step (State.reset.withFetchWord 16 0x6455)) (fun t => t.reg 4 = 0x55) := by decide

/-! ### The hypotheses of the statements can be met -/

/-- A result is the next state it is. -/
theorem exec_next_of {r : Result} {t : State} (h : r = .next t) : ∃ u, r = .next u := ⟨t, h⟩

theorem witness_DecodeOfEncodeIsIdentity : (Instr.drw 15 15 15).wf = true := by decide
theorem witness_EncodeOfDecodeIsIdentity : decode 0xDFFF = .ok (.drw 15 15 15) := by decide
theorem witness_LegalWordsMatchOneRow : ∃ row ∈ opcodeMap, row.admits 0x00E0 = true := by decide

/-- A running machine about to execute the word at `pc`. -/
def about (pc : Word) (bytes : List Byte) : State := State.setBytes { fresh with pc := pc } pc.toNat bytes

theorem witness_StepRunsTheDecodedInstruction :
    ((about 0xFFE [0x61, 0x01]).run = .running ∧ (about 0xFFE [0x61, 0x01]).wait = none ∧
      (about 0xFFE [0x61, 0x01]).pc.toNat ≤ 0xFFE ∧
      decodeBytes ((about 0xFFE [0x61, 0x01]).byteAt 0xFFE) ((about 0xFFE [0x61, 0x01]).byteAt 0xFFF) =
        .ok (.ldImm 1 1) ∧ (about 0xFFE [0x61, 0x01]).agenda = []) ∧
    ({ about 0xFFE [0x61, 0x01] with agenda := [.instruction, .frameTick] } : State).agenda =
      .instruction :: [.frameTick] := by decide
theorem witness_BadFetchesAreFatal :
    ((about 0xFFE []).run = .running ∧ (about 0xFFE []).wait = none ∧ (about 0xFFE []).agenda = [] ∧
      (about 0xFFE []).pc.toNat ≤ 0xFFE ∧
      decodeBytes ((about 0xFFE []).byteAt 0xFFE) ((about 0xFFE []).byteAt 0xFFF) =
        .error .unrecognizedInstruction) ∧
    ((about 0xFFF []).run = .running ∧ (about 0xFFF []).wait = none ∧ 0xFFE < (about 0xFFF []).pc.toNat) ∧
    ({ about 0xFFF [] with agenda := [.instruction, .frameTick] } : State).agenda = .instruction :: [.frameTick] := by
  decide
theorem witness_NothingHappensWhereNoStepIsEnabled :
    (State.reset.run = .stopped ∧ State.reset.agenda = []) ∧
    (({ fresh with wait := some 3, agenda := [.frameTick] } : State).wait = some 3 ∧
      ∀ k : Fin 16, fresh.keys[k] = false) := by decide
theorem witness_FaultedMachineIsTerminal : ({ fresh with run := .faulted } : State).run = .faulted := rfl
theorem witness_FieldsAreSlicesOfTheWord : (0xD12A : Word) >>> 12 = 0xD := by decide
theorem witness_FatalConditionsFollowTheTable :
    fatalCause (.storeRegs 15) { fresh with i := 0xFF1 } = some .memoryOutOfBounds ∧
    fatalCause (.ldB 0) { fresh with i := 0xFFE } = some .memoryOutOfBounds ∧
    fatalCause (.drw 0 0 15) { fresh with i := 0xFF2 } = some .memoryOutOfBounds ∧
    fatalCause (.drw 0 0 0) fresh = some .badSpriteHeight ∧ fatalCause .ret fresh = some .stackUnderflow ∧
    fatalCause (.call 0) { fresh with sp := 16 } = some .stackOverflow ∧
    fatalCause (.skp 1) (withRegs [(1, 16)]) = some .keyIndexOutOfRange ∧
    fatalCause (.ldF 1) (withRegs [(1, 16)]) = some .digitOutOfRange := by decide
theorem witness_InstructionsCompleteOtherwise :
    fatalCause (.storeRegs 15) { fresh with i := 0xFF0 } = none ∧ fatalCause (.ldB 0) { fresh with i := 0xFFD } = none ∧
    fatalCause (.drw 0 0 15) { fresh with i := 0xFF1 } = none ∧ fatalCause .ret { fresh with sp := 1 } = none ∧
    fatalCause (.call 0) { fresh with sp := 15 } = none ∧ fatalCause (.skp 1) (withRegs [(1, 15)]) = none ∧
    fatalCause (.ldF 1) (withRegs [(1, 15)]) = none := by decide
theorem witness_FatalInstructionsCommitOnlyThePreIncrement :
    fresh.run ≠ .faulted ∧ nextHas (exec .ret fresh) (fun t => t.run = .faulted) := by decide
theorem witness_ShiftsByOneSetTheBitShiftedOut :
    (0x05 = if fresh.legacy = true then ((withRegs [(1, 5)]).reg 2).toNat else ((withRegs [(1, 5)]).reg 1).toNat) ∧
    (0x82 = if ({ withRegs [(2, 0x82)] with legacy := true } : State).legacy = true
      then ((withRegs [(2, 0x82)]).reg 2).toNat else ((withRegs [(2, 0x82)]).reg 1).toNat) := by decide
theorem witness_FlagIsZeroOrOne :
    writesFlag (.addReg 1 2) = true ∧ fatalCause (.addReg 1 2) fresh = none ∧
    nextHas (exec (.addReg 1 2) fresh) (fun _ => true) := by decide
theorem witness_CallPushesTheReturnAddress :
    ({ fresh with sp := 15 } : State).sp.val < 16 ∧ ({ fresh with sp := 16 } : State).sp.val = 16 := by decide
theorem witness_ReturnPopsTheReturnAddress :
    0 < ({ fresh with sp := 1 } : State).sp.val ∧ fresh.sp.val = 0 := by decide

/-- Reset meets the invariants. -/
theorem inv_fresh : Inv fresh := ⟨by decide, by decide, by decide, by decide, by decide⟩

theorem witness_CallThenReturnRestoresTheState : Inv { fresh with sp := 15 } ∧ ({ fresh with sp := 15 } : State).sp.val < 16 :=
  ⟨⟨by decide, by decide, by decide, by decide, by decide⟩, by decide⟩
theorem witness_SkipsOnKey :
    ((withRegs [(1, 15)]).reg 1).toNat < 16 ∧ 15 < ((withRegs [(1, 16)]).reg 1).toNat := by decide
theorem witness_OtherInstructionsFallThrough : ∃ t, exec .cls fresh = .next t := exec_next_of rfl
theorem witness_IndexFromAddressOrDigit :
    ((withRegs [(1, 15)]).reg 1).toNat ≤ 15 ∧ 15 < ((withRegs [(1, 16)]).reg 1).toNat := by decide
theorem witness_DecimalDigitsAreStored :
    ({ fresh with i := 0xFFD } : State).i.toNat ≤ 0xFFD ∧ 0xFFD < ({ fresh with i := 0xFFE } : State).i.toNat := by decide
theorem witness_RegistersAreStoredAndLoaded :
    ({ fresh with i := 0xFF0 } : State).i.toNat + (15 : Reg).val ≤ 0xFFF ∧
    0xFFF < ({ fresh with i := 0xFF1 } : State).i.toNat + (15 : Reg).val := by decide
theorem witness_LoadGivesBackWhatWasStored :
    ({ fresh with i := 0xFF0 } : State).legacy = false ∧
    ({ fresh with i := 0xFF0 } : State).i.toNat + (15 : Reg).val ≤ 0xFFF := by decide

/-- A machine about to store the two bytes of its own next instruction, at the last address where it fits. -/
def selfModifying : State := { about 0xFFC [0xF1, 0x55] with i := 0xFFE }

theorem witness_StoreIsSeenByTheNextFetch :
    selfModifying.run = .running ∧ selfModifying.wait = none ∧ selfModifying.agenda = [] ∧
    selfModifying.pc.toNat ≤ 0xFFC ∧ selfModifying.i = selfModifying.pc + 2 ∧
    decodeBytes (selfModifying.byteAt 0xFFC) (selfModifying.byteAt 0xFFD) = .ok (.storeRegs 1) := by decide
theorem witness_CanonicalMemoriesAreEqualByReads :
    Memory.wf defaultFont [(0x300, 7), (0xFFF, 1)] = true ∧ Memory.wf defaultFont [(0x300, 0)] = false ∧
    Memory.wf defaultFont [(0x1000, 1)] = false := by decide
theorem witness_DrawXorsTheSprite :
    ((0 : Nat) = 0 ∨ 16 ≤ 0) ∧ ((16 : Nat) = 0 ∨ 16 ≤ 16) ∧ (0 < 15 ∧ 15 ≤ 15 ∧ 0xFFF < ({ fresh with i := 0xFF2 } : State).i.toNat + 15 - 1) ∧
    (0 < 1 ∧ 1 ≤ 15 ∧ ({ fresh with i := 0xFFF } : State).i.toNat + 1 - 1 ≤ 0xFFF) := by decide
theorem witness_DrawingTwiceErases :
    (0 : Reg) ≠ flagReg ∧ (1 : Reg) ≠ flagReg ∧ fresh.i.toNat + 5 - 1 ≤ 0xFFF ∧
    (∀ R < 32, ∀ C < 64, fresh.display.pixel R C = false) ∧ (fresh.byteAt (fresh.i.toNat + 4)).getLsbD 7 = true := by
  refine ⟨by decide, by decide, by decide, fun R _ C _ => ?_, by decide⟩
  simp [fresh, State.reset, State.construct, Display.pixel]
theorem witness_KeyWaitInstruction :
    (∃ k : Fin 16, (fresh.keys.set 7 true)[k] = true) ∧ ∀ k : Fin 16, fresh.keys[k] = false := by decide
theorem witness_PressedKeyEndsTheWait :
    ({ fresh with wait := some 3 } : State).run = .running ∧ ({ fresh with wait := some 3 } : State).wait = some 3 ∧
    ∃ k : Fin 16, (fresh.keys.set 15 true)[k] = true := by decide
theorem witness_FrameTickEffect :
    ({ fresh with agenda := [.frameTick] } : State).run = .running ∧ fresh.wait = none ∧
    ({ fresh with agenda := [.frameTick] } : State).agenda = .frameTick :: [] := by decide
theorem witness_RenderCarriesTheWholeDisplay : fresh.run = .running ∧ fresh.wait = none := by decide
theorem witness_SoundTimerTonesForItsValue :
    fresh.run = .running ∧ fresh.wait = none ∧ fresh.stopReq = false := by decide
theorem witness_SoundTimerIsInvisibleToPrograms :
    (∃ t, exec (.ldVxDT 1) fresh = .next t) ∧ ∀ x, Instr.ldVxDT 1 ≠ .ldSTVx x :=
  ⟨exec_next_of rfl, fun _ h => nomatch h⟩
theorem witness_RunAndStopRequests :
    (State.reset.run = .stopped ∧ fresh.run = .running ∧ ({ fresh with run := .faulted } : State).run = .faulted) ∧
    (fresh.wait = none ∧ ({ fresh with wait := some 3 } : State).wait = some 3 ∧ ∀ k : Fin 16, fresh.keys[k] = false) ∧
    (∀ op ∈ [HostOp.run, .stop, .setKeys (fresh.keys.set 15 true), .load [0x64, 0x55]],
      ({ fresh with agenda := [.host op, .frameTick] } : State).agenda = .host op :: [.frameTick]) :=
  ⟨by decide, by decide, fun _ _ => rfl⟩
theorem witness_LoadCopiesTheProgram :
    State.reset.run = .stopped ∧ (List.replicate 0xE00 (0 : Byte)).length ≤ 0xE00 ∧
    0xE00 < (List.replicate 0xE01 (0 : Byte)).length ∧ fresh.run = .running := by
  rw [List.length_replicate, List.length_replicate]
  exact ⟨rfl, Nat.le_refl _, Nat.lt_succ_self _, rfl⟩
theorem witness_OtherRegistersAreKept :
    nextHas (exec (.ldImm 1 7) fresh) (fun _ => true) ∧ mayWriteReg (.ldImm 1 7) 15 = false := by decide
theorem witness_IndexAndDisplayAreKept :
    nextHas (exec (.storeRegs 1) fresh) (fun _ => true) ∧ mayWriteIndex (.storeRegs 1) fresh.legacy = false := by decide
theorem witness_StackAndTimersAreKept : (∃ t, exec .cls fresh = .next t) ∧ Instr.cls ≠ .ret :=
  ⟨exec_next_of rfl, by decide⟩
theorem witness_OtherMemoryIsKept :
    nextHas (exec (.ldB 1) { fresh with i := 0x300 }) (fun _ => true) ∧
    ¬(effectiveAddress { fresh with i := 0x300 } 0 ≤ 0x303 ∧
      0x303 < effectiveAddress { fresh with i := 0x300 } 0 + storedLength (.ldB 1)) := by decide
theorem witness_ControlStateIsKept :
    nextHas (exec (.ldB 1) fresh) (fun _ => true) ∧ fatalCause (.ldB 1) fresh = none := by decide
theorem witness_EveryStepKeepsTheInvariants : Inv fresh ∧ nextHas (step fresh) (fun _ => true) = true :=
  ⟨inv_fresh, by decide⟩
theorem witness_EveryStepKeepsThePcBound : PcBounded fresh ∧ nextHas (step fresh) (fun _ => true) = true :=
  ⟨⟨by decide, by decide⟩, by decide⟩
theorem witness_ParametersNeverChange : nextHas (step fresh) (fun t => t.legacy = false) := by decide
theorem witness_ResetStates : State.reset = State.construct false defaultFont := rfl
theorem witness_ProgramBeginsAtItsFirstWord : ((0x64 : Byte) :: 0x55 :: [0x85, 0x40]).length ≤ 0xE00 := by decide

end Sys2Proof.Tests
end

/-!
What an instruction answers, said once: the fatal condition of 60_exceptions.md R251, where there is one, and
otherwise the state `completed i s`. What an instruction leaves alone (10_state.md R40) is then one lemma about
`completed` for each field of the state.
-/

namespace Sys2Proof.Machine

variable (s : State)

/-! ### The state an instruction leaves -/

/-- A push that does not overflow (41_flow.md R142, `State.push_eq_pushed`); total, so that it needs no bound on `SP`. -/
@[simp] def State.pushed (w : Word) : State :=
  { s with stack := s.stack.setIfInBounds s.sp.val w, sp := ⟨min (s.sp.val + 1) 16, by omega⟩ }

/-- A pop that does not underflow (R140, `State.pop_cases`); total, so that it needs no bound on `SP`. -/
@[simp] def State.popped : State :=
  { s with stack := s.stack.set (s.sp.val - 1) 0, sp := ⟨s.sp.val - 1, by omega⟩ }

/-- What `Fx0A` does: the pressed key goes to `Vx`, or the wait for one begins (45_keypad_timers.md R233). -/
def State.takeKey (x : Reg) : State :=
  match pickKey s.keys with
  | some k => s.setReg x (keyByte k)
  | none => { s with wait := some x }

/-- The level of the key a register names; an index out of range names none. -/
def keyLevel (x : Reg) : Bool := (keyOperand s x).any fun k => s.keys[k]

/-- The sprite of `Dxyn` drawn at `Vx`, `Vy`: the display afterwards and the collision (44_display.md R211). -/
def drawn (x y : Reg) (n : Nat) : Display × Bool :=
  blit s.display (s.bytesAt (effectiveAddress s 0) n) (s.reg x).toNat (s.reg y).toNat

/-- The state the instruction leaves where it raises no fatal condition (`exec_cases`). -/
def completed (i : Instr) (s : State) : State :=
  match i with
  | .cls => { s.preIncrement with display := Display.blank }
  | .ret => s.preIncrement.popped.setPc s.stack[s.sp.val - 1]
  | .jp nnn => s.preIncrement.setPc (addressOperand nnn)
  | .call nnn => (s.preIncrement.pushed (s.pc + 2)).setPc (addressOperand nnn)
  | .seImm x kk => s.preIncrement.skipIf (s.reg x = kk)
  | .sneImm x kk => s.preIncrement.skipIf (s.reg x ≠ kk)
  | .seReg x y => s.preIncrement.skipIf (s.reg x = s.reg y)
  | .ldImm x kk => s.preIncrement.setReg x kk
  | .addImm x kk => s.preIncrement.setReg x (s.reg x + kk)
  | .ldReg x y => s.preIncrement.setReg x (s.reg y)
  | .orReg x y => s.preIncrement.setReg x (s.reg x ||| s.reg y)
  | .andReg x y => s.preIncrement.setReg x (s.reg x &&& s.reg y)
  | .xorReg x y => s.preIncrement.setReg x (s.reg x ^^^ s.reg y)
  | .addReg x y => s.preIncrement.setRegThenFlag x (s.reg x + s.reg y) (carry (s.reg x) (s.reg y))
  | .subReg x y => s.preIncrement.setRegThenFlag x (s.reg x - s.reg y) (notBorrow (s.reg x) (s.reg y))
  | .shr x y => s.preIncrement.setRegThenFlag x (shiftSource s x y >>> 1) (lowBitOut (shiftSource s x y))
  | .subn x y => s.preIncrement.setRegThenFlag x (s.reg y - s.reg x) (notBorrow (s.reg y) (s.reg x))
  | .shl x y => s.preIncrement.setRegThenFlag x (shiftSource s x y <<< 1) (highBitOut (shiftSource s x y))
  | .sneReg x y => s.preIncrement.skipIf (s.reg x ≠ s.reg y)
  | .ldI nnn => s.preIncrement.setIndex (addressOperand nnn)
  | .jpV0 nnn => s.preIncrement.setPc (addressOperand nnn + wideReg s 0)
  | .rnd x kk => { s.preIncrement.setReg x (Config.randomByte s.draws &&& kk) with draws := s.draws + 1 }
  | .drw x y n => State.setReg { s.preIncrement with display := (drawn s x y n).1 } flagReg (flagByte (drawn s x y n).2)
  | .skp x => s.preIncrement.skipIf (keyLevel s x)
  | .sknp x => s.preIncrement.skipIf (!keyLevel s x)
  | .ldVxDT x => s.preIncrement.setReg x s.dt
  | .ldVxK x => s.preIncrement.takeKey x
  | .ldDTVx x => { s.preIncrement with dt := s.reg x }
  | .ldSTVx x => { s.preIncrement with st := s.reg x }
  | .addI x => s.preIncrement.setIndex (s.i + wideReg s x)
  | .ldF x => s.preIncrement.setIndex (glyphAddress (s.reg x).toNat)
  | .ldB x => s.preIncrement.setBytes (effectiveAddress s 0) (decimalDigits (s.reg x))
  | .storeRegs x => (s.preIncrement.setBytes (effectiveAddress s 0) (regsUpTo s x)).advanceIndex (x.val + 1)
  | .loadRegs x =>
    (s.preIncrement.setRegs (s.bytesAt (effectiveAddress s 0) (x.val + 1))).advanceIndex (x.val + 1)

/-! ### The instructions whose meaning has cases -/

/-- The instruction raises the fatal condition the table gives for it, or completes. -/
def AnswersAsTabled (i : Instr) : Prop :=
  (∃ c, fatalCause i s = some c ∧ exec i s = raiseIn i c s) ∨
    (fatalCause i s = none ∧ exec i s = .next (completed i s))

variable {s} in
/-- The table gives this condition, and the instruction raises it. -/
theorem AnswersAsTabled.fatal {i : Instr} {c : Cause} (hc : fatalCause i s = some c)
    (h : exec i s = raiseIn i c s) : AnswersAsTabled s i :=
  .inl ⟨c, hc, h⟩

variable {s} in
/-- The table gives no condition, and the instruction completes. -/
theorem AnswersAsTabled.completes {i : Instr} (hc : fatalCause i s = none)
    (h : exec i s = .next (completed i s)) : AnswersAsTabled s i :=
  .inr ⟨hc, h⟩

/-- Everything a push can answer, by `State.pushed`. -/
theorem State.push_eq_pushed (w : Word) :
    (s.push w = some (s.pushed w) ∧ s.sp.val < 16) ∨ (s.push w = none ∧ s.sp.val = 16) := by
  rcases s.push_cases w with ⟨h, e⟩ | h
  · refine .inl ⟨?_, h⟩
    simp [e, State.pushed, Vector.setIfInBounds, Array.setIfInBounds, h]
  · exact .inr h

theorem answersAsTabled_ret : AnswersAsTabled s .ret := by
  rcases s.preIncrement.pop_cases with ⟨h, e⟩ | ⟨e, h⟩ <;> rw [State.preIncrement_sp] at h
  · exact .completes (if_neg (by omega)) (by simp only [exec, execRet, e]; rfl)
  · exact .fatal (if_pos h) (by simp only [exec, execRet, e])

theorem answersAsTabled_call (nnn : BitVec 12) : AnswersAsTabled s (.call nnn) := by
  rcases s.preIncrement.push_eq_pushed (s.pc + 2) with ⟨e, h⟩ | ⟨e, h⟩ <;> rw [State.preIncrement_sp] at h
  · exact .completes (if_neg (by omega)) (by simp only [exec, execCall, completed, State.preIncrement_pc, e])
  · exact .fatal (if_pos (by omega)) (by simp only [exec, execCall, State.preIncrement_pc, e])

theorem answersAsTabled_skp (x : Reg) : AnswersAsTabled s (.skp x) := by
  rcases keyOperand_cases s x with ⟨k, e, h⟩ | ⟨e, h⟩
  · exact .completes (if_neg (by omega)) (by simp [exec, execSkp, completed, keyLevel, e])
  · exact .fatal (if_pos h) (by simp only [exec, execSkp, e])

theorem answersAsTabled_sknp (x : Reg) : AnswersAsTabled s (.sknp x) := by
  rcases keyOperand_cases s x with ⟨k, e, h⟩ | ⟨e, h⟩
  · exact .completes (if_neg (by omega)) (by simp [exec, execSknp, completed, keyLevel, e])
  · exact .fatal (if_pos h) (by simp only [exec, execSknp, e])

theorem answersAsTabled_ldF (x : Reg) : AnswersAsTabled s (.ldF x) := by
  rcases digitOperand_cases s x with ⟨e, h⟩ | ⟨e, h⟩
  · exact .completes (if_neg (by omega)) (by simp only [exec, execLdF, e, completed])
  · exact .fatal (if_pos h) (by simp only [exec, execLdF, e])

theorem answersAsTabled_drw (x y : Reg) (n : Nat) : AnswersAsTabled s (.drw x y n) := by
  by_cases hn : n = 0 ∨ 16 ≤ n
  · exact .fatal (if_pos hn) (by simp only [exec, execDrw, if_pos hn])
  · rcases s.memRead_cases (effectiveAddress s 0) n with ⟨e, h⟩ | ⟨e, -, h⟩ <;> rw [effectiveAddress] at h
    · exact .completes (by rw [fatalCause, if_neg hn, if_neg (by omega)])
        (by simp only [exec, execDrw, if_neg hn, e]; rfl)
    · exact .fatal (by rw [fatalCause, if_neg hn, if_pos (by omega)])
        (by simp only [exec, execDrw, if_neg hn, e])

theorem answersAsTabled_ldB (x : Reg) : AnswersAsTabled s (.ldB x) := by
  rcases s.preIncrement.memWrite_cases (effectiveAddress s 0) (decimalDigits (s.reg x)) with ⟨e, h⟩ | ⟨e, -, h⟩ <;>
    rw [effectiveAddress, length_decimalDigits] at h
  · exact .completes (if_neg (by omega)) (by simp only [exec, execLdB, e, completed])
  · exact .fatal (if_pos (by omega)) (by simp only [exec, execLdB, e])

theorem answersAsTabled_storeRegs (x : Reg) : AnswersAsTabled s (.storeRegs x) := by
  rcases s.preIncrement.memWrite_cases (effectiveAddress s 0) (regsUpTo s x) with ⟨e, h⟩ | ⟨e, -, h⟩ <;>
    rw [effectiveAddress, length_regsUpTo] at h
  · exact .completes (if_neg (by omega)) (by simp only [exec, execStoreRegs, e, completed])
  · exact .fatal (if_pos (by omega)) (by simp only [exec, execStoreRegs, e])

theorem answersAsTabled_loadRegs (x : Reg) : AnswersAsTabled s (.loadRegs x) := by
  rcases s.memRead_cases (effectiveAddress s 0) (x.val + 1) with ⟨e, h⟩ | ⟨e, -, h⟩ <;> rw [effectiveAddress] at h
  · exact .completes (if_neg (by omega)) (by simp only [exec, execLoadRegs, e, completed])
  · exact .fatal (if_pos (by omega)) (by simp only [exec, execLoadRegs, e])

theorem answersAsTabled_ldVxK (x : Reg) : AnswersAsTabled s (.ldVxK x) := by
  refine .completes rfl ?_
  cases h : pickKey s.keys <;> simp [exec, execLdVxK, completed, State.takeKey, h]

/-! ### Everything an instruction can answer -/

/-- An instruction raises the fatal condition the table gives for it, and completes where the table gives none. -/
theorem exec_cases (i : Instr) :
    (∃ c, fatalCause i s = some c ∧ exec i s = raiseIn i c s) ∨
      (fatalCause i s = none ∧ exec i s = .next (completed i s)) := by
  cases i with
  | ret => exact answersAsTabled_ret s
  | call nnn => exact answersAsTabled_call s nnn
  | skp x => exact answersAsTabled_skp s x
  | sknp x => exact answersAsTabled_sknp s x
  | ldF x => exact answersAsTabled_ldF s x
  | drw x y n => exact answersAsTabled_drw s x y n
  | ldB x => exact answersAsTabled_ldB s x
  | storeRegs x => exact answersAsTabled_storeRegs s x
  | loadRegs x => exact answersAsTabled_loadRegs s x
  | ldVxK x => exact answersAsTabled_ldVxK s x
  | _ => exact .inr ⟨rfl, rfl⟩

theorem exec_of_fatal {s : State} {i : Instr} {c : Cause} (hc : fatalCause i s = some c) :
    exec i s = raiseIn i c s := by
  rcases exec_cases s i with ⟨c', hc', e⟩ | ⟨hn, -⟩
  · cases hc.symm.trans hc'
    exact e
  · cases hc.symm.trans hn

theorem exec_of_completes {s : State} {i : Instr} (hc : fatalCause i s = none) :
    exec i s = .next (completed i s) := by
  rcases exec_cases s i with ⟨c, hc', -⟩ | ⟨-, e⟩
  · cases hc.symm.trans hc'
  · exact e

/-- A next state of an instruction is the fatal condition taken, or the completed instruction. -/
theorem exec_next_cases {s t : State} {i : Instr} (h : exec i s = .next t) :
    (∃ c, fatalCause i s = some c ∧ t = s.preIncrement.raise c (some (encode i)) (some s.pc)) ∨
      (fatalCause i s = none ∧ t = completed i s) := by
  rcases exec_cases s i with ⟨c, hc, e⟩ | ⟨hc, e⟩ <;> rw [e] at h <;> cases h
  · exact .inl ⟨c, hc, rfl⟩
  · exact .inr ⟨hc, rfl⟩

/-! ### The control state of a completed instruction -/

/-- `Fx0A` writes its register or begins the wait, and does nothing else. -/
@[simp] theorem State.takeKey_eq (x : Reg) :
    s.takeKey x =
      { s with
        v := (pickKey s.keys).elim s.v fun k => s.v.set x (keyByte k)
        wait := (pickKey s.keys).elim (some x) fun _ => s.wait } := by
  unfold State.takeKey
  cases pickKey s.keys <;> rfl

/-- The fields no instruction writes are the same in both states. -/
structure SameControl (s t : State) : Prop where
  keys : t.keys = s.keys
  legacy : t.legacy = s.legacy
  font : t.font = s.font
  stopReq : t.stopReq = s.stopReq
  agenda : t.agenda = s.agenda
  out : t.out = s.out

theorem completed_sameControl (i : Instr) : SameControl s (completed i s) := by
  cases i <;> constructor <;> simp [completed, State.skipIf_eq, State.advanceIndex_eq]

theorem completed_notFatal (i : Instr) : NotFatal s (completed i s) := by
  cases i <;> constructor <;> simp [completed, State.skipIf_eq, State.advanceIndex_eq]

@[simp] theorem completed_font (i : Instr) : (completed i s).font = s.font := (completed_sameControl s i).font

theorem exec_sameControl {s t : State} {i : Instr} (h : exec i s = .next t) : SameControl s t := by
  obtain ⟨_, _, rfl⟩ | ⟨-, rfl⟩ := exec_next_cases h
  · exact ⟨rfl, rfl, rfl, rfl, rfl, rfl⟩
  · exact completed_sameControl s i

theorem completed_wait {i : Instr} (h : ∀ x, i ≠ .ldVxK x) : (completed i s).wait = s.wait := by
  cases i with
  | ldVxK x => exact absurd rfl (h x)
  | _ => simp [completed, State.skipIf_eq, State.advanceIndex_eq]

theorem completed_draws {i : Instr} (h : ∀ x kk, i ≠ .rnd x kk) : (completed i s).draws = s.draws := by
  cases i with
  | rnd x kk => exact absurd rfl (h x kk)
  | _ => simp [completed, State.skipIf_eq, State.advanceIndex_eq]

/-! ### Registers -/

theorem State.reg_takeKey_ne {x r : Reg} (h : r ≠ x) : (s.takeKey x).reg r = s.reg r := by
  unfold State.takeKey
  split
  · exact s.reg_setReg_ne h _
  · rfl

@[simp] theorem State.reg_skipIf (c : Bool) (r : Reg) : (s.skipIf c).reg r = s.reg r := by
  rw [State.skipIf_eq, State.reg_setPc]

@[simp] theorem State.reg_advanceIndex (n : Nat) (r : Reg) : (s.advanceIndex n).reg r = s.reg r := by
  rw [State.advanceIndex_eq, State.reg_setIndex]

theorem State.reg_setRegThenFlag_ne {x r : Reg} (b f : Byte) (h : ¬(r = x ∨ r = flagReg)) :
    (s.setRegThenFlag x b f).reg r = s.reg r := by
  obtain ⟨hx, hf⟩ := not_or.1 h
  rw [State.reg_setRegThenFlag, if_neg hf, if_neg hx]

theorem completed_reg {i : Instr} {r : Reg} (h : mayWriteReg i r = false) :
    (completed i s).reg r = s.reg r := by
  cases i with
  | ldImm x _ | addImm x _ | ldReg x _ | orReg x _ | andReg x _ | xorReg x _ | rnd x _ | ldVxDT x =>
    exact State.reg_setReg_ne _ (of_decide_eq_false h) _
  | drw _ _ _ => exact State.reg_setReg_ne _ (of_decide_eq_false h) _
  | ldVxK x => exact State.reg_takeKey_ne _ (of_decide_eq_false h)
  | addReg x _ | subReg x _ | shr x _ | subn x _ | shl x _ =>
    exact State.reg_setRegThenFlag_ne _ _ _ (of_decide_eq_false h)
  | loadRegs x =>
    have hr : ¬ r.val < x.val + 1 := fun hlt => of_decide_eq_false h (Nat.le_of_lt_succ hlt)
    simp [completed, State.reg_setRegs, hr]
  | seImm _ _ | sneImm _ _ | seReg _ _ | sneReg _ _ | skp _ | sknp _ => exact State.reg_skipIf _ _ _
  | storeRegs _ => exact State.reg_advanceIndex _ _ _
  | _ => rfl

theorem flagByte_eq_zero_or_one (b : Bool) : flagByte b = 0 ∨ flagByte b = 1 := by
  cases b
  · exact .inl rfl
  · exact .inr rfl

/-- An instruction that writes the flag leaves a flag in VF, even where VF is its destination (decision D8). -/
theorem completed_flag {i : Instr} (h : writesFlag i = true) : ∃ b, (completed i s).reg flagReg = flagByte b := by
  cases i with
  | addReg _ _ | subReg _ _ | shr _ _ | subn _ _ | shl _ _ | drw _ _ _ => exact ⟨_, State.reg_setReg_same _ _ _⟩
  | _ => cases h

/-! ### Index register, display, timers -/

theorem completed_index {i : Instr} (h : mayWriteIndex i s.legacy = false) : (completed i s).i = s.i := by
  cases i with
  | ldI _ | addI _ | ldF _ => cases h
  | storeRegs _ | loadRegs _ =>
    have hl : s.legacy = false := h
    simp [completed, State.advanceIndex_eq, hl]
  | _ => simp [completed, State.skipIf_eq]

theorem completed_display {i : Instr} (hc : i ≠ .cls) (hd : ∀ x y n, i ≠ .drw x y n) :
    (completed i s).display = s.display := by
  cases i with
  | cls => exact absurd rfl hc
  | drw x y n => exact absurd rfl (hd x y n)
  | _ => simp [completed, State.skipIf_eq, State.advanceIndex_eq]

theorem completed_dt {i : Instr} (h : ∀ x, i ≠ .ldDTVx x) : (completed i s).dt = s.dt := by
  cases i with
  | ldDTVx x => exact absurd rfl (h x)
  | _ => simp [completed, State.skipIf_eq, State.advanceIndex_eq]

theorem completed_st {i : Instr} (h : ∀ x, i ≠ .ldSTVx x) : (completed i s).st = s.st := by
  cases i with
  | ldSTVx x => exact absurd rfl (h x)
  | _ => simp [completed, State.skipIf_eq, State.advanceIndex_eq]

theorem State.bytesAt_with_st (st : Byte) (a n : Nat) : State.bytesAt { s with st := st } a n = s.bytesAt a n := by
  induction n generalizing a with
  | zero => rfl
  | succ n ih => exact congrArg (s.byteAt a :: ·) (ih (a + 1))

/-- A completed instruction other than `Fx18` neither reads nor writes `ST` (10_state.md R27). -/
theorem completed_with_st {i : Instr} (h : ∀ x, i ≠ .ldSTVx x) (st : Byte) :
    completed i { s with st := st } = { completed i s with st := st } := by
  cases i with
  | ldSTVx x => exact absurd rfl (h x)
  | ldVxK x => simp only [completed, State.takeKey_eq]; rfl
  | seImm _ _ | sneImm _ _ | seReg _ _ | sneReg _ _ | skp _ | sknp _ =>
    simp only [completed, State.skipIf_eq]; rfl
  | storeRegs _ => simp only [completed, State.advanceIndex_eq]; rfl
  | loadRegs _ => simp only [completed, State.advanceIndex_eq, State.bytesAt_with_st]; rfl
  | drw _ _ _ => simp only [completed, drawn, State.bytesAt_with_st]; rfl
  | _ => rfl

theorem fatalCause_with_st (i : Instr) (st : Byte) : fatalCause i { s with st := st } = fatalCause i s := by
  cases i <;> rfl

/-! ### The call stack -/

theorem completed_sp_stack {i : Instr} (hr : i ≠ .ret) (hc : ∀ nnn, i ≠ .call nnn) :
    (completed i s).sp = s.sp ∧ (completed i s).stack = s.stack := by
  cases i with
  | ret => exact absurd rfl hr
  | call nnn => exact absurd rfl (hc nnn)
  | _ => simp [completed, State.skipIf_eq, State.advanceIndex_eq]

/-- The call stack after a completed instruction is the old one, one with the address of the next instruction
pushed, or one popped. -/
theorem completed_stack_cases (i : Instr) :
    ((completed i s).sp = s.sp ∧ (completed i s).stack = s.stack) ∨
      ((completed i s).sp = (s.pushed (s.pc + 2)).sp ∧ (completed i s).stack = (s.pushed (s.pc + 2)).stack) ∨
      ((completed i s).sp = s.popped.sp ∧ (completed i s).stack = s.popped.stack) := by
  cases i with
  | ret => exact .inr (.inr ⟨rfl, rfl⟩)
  | call nnn => exact .inr (.inl ⟨rfl, rfl⟩)
  | _ => exact .inl (by simp [completed, State.skipIf_eq, State.advanceIndex_eq])

theorem State.getElem_pushed (w : Word) (k : Fin 16) :
    (s.pushed w).stack[k] = if s.sp.val = k.val then w else s.stack[k] := by
  simp [Vector.getElem_setIfInBounds]

theorem State.getElem_popped (k : Fin 16) :
    s.popped.stack[k] = if s.sp.val - 1 = k.val then 0 else s.stack[k] := by
  simp [Vector.getElem_set]

/-- A completed instruction keeps the slots at or above `SP` clear (10_state.md R25). -/
theorem completed_stackClear (i : Instr) (h : ∀ k : Fin 16, s.sp.val ≤ k.val → s.stack[k] = 0) (k : Fin 16)
    (hk : (completed i s).sp.val ≤ k.val) : (completed i s).stack[k] = 0 := by
  obtain ⟨hsp, hst⟩ | ⟨hsp, hst⟩ | ⟨hsp, hst⟩ := completed_stack_cases s i <;> rw [hsp] at hk <;> rw [hst]
  · exact h k hk
  · replace hk : min (s.sp.val + 1) 16 ≤ k.val := hk
    rw [State.getElem_pushed, if_neg (by omega), h k (by omega)]
  · replace hk : s.sp.val - 1 ≤ k.val := hk
    rw [State.getElem_popped]
    split
    · rfl
    · exact h k (by omega)

/-- A completed instruction fetched inside memory keeps the bound on return addresses (10_state.md R23). -/
theorem completed_stack_le (i : Instr) (hpc : s.pc.toNat ≤ 0xFFE) (h : ∀ k : Fin 16, s.stack[k].toNat ≤ 0x1000)
    (k : Fin 16) : (completed i s).stack[k].toNat ≤ 0x1000 := by
  obtain ⟨-, hst⟩ | ⟨-, hst⟩ | ⟨-, hst⟩ := completed_stack_cases s i <;> rw [hst]
  · exact h k
  · rw [State.getElem_pushed]
    split
    · bv_omega
    · exact h k
  · rw [State.getElem_popped]
    split
    · decide
    · exact h k

/-! ### Memory -/

/-- The bytes an instruction stores at `I` and the following addresses; none for most. -/
def storedBytes (i : Instr) (s : State) : List Byte :=
  match i with
  | .ldB x => decimalDigits (s.reg x)
  | .storeRegs x => regsUpTo s x
  | _ => []

theorem length_storedBytes (i : Instr) : (storedBytes i s).length = storedLength i := by
  cases i with
  | storeRegs x => exact length_regsUpTo s x
  | _ => rfl

theorem completed_mem (i : Instr) :
    (completed i s).mem = Memory.writeList s.font s.mem (effectiveAddress s 0) (storedBytes i s) := by
  cases i <;> simp [completed, State.skipIf_eq, State.advanceIndex_eq, storedBytes, Memory.writeList]

theorem completed_byteAt {i : Instr} {a : Nat}
    (h : ¬(effectiveAddress s 0 ≤ a ∧ a < effectiveAddress s 0 + storedLength i)) :
    (completed i s).byteAt a = s.byteAt a := by
  rw [State.byteAt, completed_font, completed_mem, Memory.read_writeList, dif_neg (by rwa [length_storedBytes])]
  rfl

/-- An instruction that raises no fatal condition stores inside memory (20_memory.md R66). -/
theorem stored_range_exists {i : Instr} (h : fatalCause i s = none) :
    storedLength i = 0 ∨ effectiveAddress s 0 + storedLength i ≤ 0x1000 := by
  cases i with
  | ldB x | storeRegs x =>
    simp only [fatalCause, ite_eq_right_iff, reduceCtorEq, imp_false] at h
    simp only [effectiveAddress, storedLength]
    omega
  | _ => exact .inl rfl

theorem completed_wf {i : Instr} (hm : Memory.wf s.font s.mem = true) (h : fatalCause i s = none) :
    Memory.wf (completed i s).font (completed i s).mem = true := by
  rw [completed_font, completed_mem]
  exact Memory.wf_writeList hm (by rw [length_storedBytes]; exact stored_range_exists s h)

/-! ### The program counter -/

/-- A completed instruction that is no transfer leaves `PC` after itself. -/
theorem completed_pc {i : Instr} (h : transfersControl i = false) : (completed i s).pc = s.pc + 2 := by
  cases i with
  | ret | jp _ | call _ | seImm _ _ | sneImm _ _ | seReg _ _ | sneReg _ _ | jpV0 _ | skp _ | sknp _ => cases h
  | _ => simp [completed, State.advanceIndex_eq]

theorem addressOperand_toNat_lt (nnn : BitVec 12) : (addressOperand nnn).toNat < 0x1000 := by
  have := nnn.isLt
  simp only [addressOperand, BitVec.toNat_setWidth]
  omega

theorem wideReg_toNat_lt (x : Reg) : (wideReg s x).toNat < 0x100 := by
  have := (s.reg x).isLt
  simp only [wideReg, BitVec.toNat_setWidth]
  omega

theorem State.skipIf_pc_le (c : Bool) (h : s.pc.toNat ≤ 0x1000) : (s.skipIf c).pc.toNat ≤ 0x1002 := by
  rw [State.skipIf_eq, State.setPc_pc]
  split <;> bv_omega

/-- The highest `PC` any instruction fetched inside memory can leave is that of `Bnnn` (conflict C12). -/
theorem completed_pc_le (i : Instr) (hpc : s.pc.toNat ≤ 0xFFE) (hs : ∀ k : Fin 16, s.stack[k].toNat ≤ 0x1000) :
    (completed i s).pc.toNat ≤ 0x10FE := by
  have hnext : (s.pc + 2).toNat ≤ 0x1000 := by bv_omega
  cases i with
  | ret => exact (hs ⟨s.sp.val - 1, by omega⟩).trans (by decide)
  | jp nnn | call nnn => exact (addressOperand_toNat_lt nnn).le.trans (by decide)
  | jpV0 nnn =>
    have ha := addressOperand_toNat_lt nnn
    have hv := wideReg_toNat_lt s 0
    show (addressOperand nnn + wideReg s 0).toNat ≤ 0x10FE
    bv_omega
  | seImm _ _ | sneImm _ _ | seReg _ _ | sneReg _ _ | skp _ | sknp _ =>
    exact (s.preIncrement.skipIf_pc_le _ hnext).trans (by decide)
  | _ => rw [completed_pc s (by rfl)]; omega

/-! ### The statements about one instruction -/

/-- Settles O20: VF is written last, with a flag (`completed_flag`). -/
theorem flagIsZeroOrOne : Obligations.FlagIsZeroOrOne := by
  intro i s t hw hc h
  obtain ⟨b, hb⟩ := completed_flag s hw
  rw [exec_of_completes hc] at h
  cases h
  exact hb ▸ flagByte_eq_zero_or_one b

/-- Settles O46: neither the fatal condition nor the completed instruction depends on `ST`. -/
theorem soundTimerIsInvisibleToPrograms : Obligations.SoundTimerIsInvisibleToPrograms := by
  intro i s t st h hi
  have hcause := fatalCause_with_st s i st
  obtain ⟨c, hc, rfl⟩ | ⟨hc, rfl⟩ := exec_next_cases h
  · exact exec_of_fatal (hcause.trans hc)
  · rw [exec_of_completes (hcause.trans hc), completed_with_st s hi]

/-- Settles O49: a fatal condition writes no register, a completed instruction only those it names. -/
theorem otherRegistersAreKept : Obligations.OtherRegistersAreKept := by
  intro i s t r h hr
  obtain ⟨_, _, rfl⟩ | ⟨-, rfl⟩ := exec_next_cases h
  · rfl
  · exact completed_reg s hr

/-- Settles O50: a fatal condition writes neither, a completed instruction only what it names. -/
theorem indexAndDisplayAreKept : Obligations.IndexAndDisplayAreKept := by
  intro i s t h
  obtain ⟨_, _, rfl⟩ | ⟨-, rfl⟩ := exec_next_cases h
  · exact ⟨fun _ => rfl, fun _ _ => rfl⟩
  · exact ⟨completed_index s, completed_display s⟩

/-- Settles O51: a fatal condition writes none of them, a completed instruction only what it names. -/
theorem stackAndTimersAreKept : Obligations.StackAndTimersAreKept := by
  intro i s t h
  obtain ⟨_, _, rfl⟩ | ⟨-, rfl⟩ := exec_next_cases h
  · exact ⟨fun _ _ => ⟨rfl, rfl⟩, fun _ => rfl, fun _ => rfl⟩
  · exact ⟨completed_sp_stack s, completed_dt s, completed_st s⟩

/-- Settles O52: a fatal condition stores nothing, a completed instruction its `storedBytes`. -/
theorem otherMemoryIsKept : Obligations.OtherMemoryIsKept := by
  intro i s t a h ha
  obtain ⟨_, _, rfl⟩ | ⟨-, rfl⟩ := exec_next_cases h
  · rfl
  · exact completed_byteAt s ha

/-- Settles O53: a fatal condition writes only the run state and the record, a completed instruction neither. -/
theorem controlStateIsKept : Obligations.ControlStateIsKept := by
  intro i s t h
  obtain ⟨hkeys, hlegacy, hfont, hstop, hagenda, hout⟩ := exec_sameControl h
  refine ⟨hkeys, hlegacy, hfont, hstop, hagenda, hout, ?_⟩
  obtain ⟨c, hc, rfl⟩ | ⟨-, rfl⟩ := exec_next_cases h
  · exact ⟨fun _ => rfl, fun _ => rfl, fun hn => by cases hc.symm.trans hn⟩
  · exact ⟨completed_wait s, completed_draws s, fun _ => completed_notFatal s i⟩

end Sys2Proof.Machine

/-!
What a step of the machine can do, said once: `Happens s t` lists the transitions of the four agents (00_scope.md
R11), and `step_happens` says that every step is one of them, once its event is off the agenda. An invariant of the
machine is then a case analysis over `Happens`.
-/

namespace Sys2Proof.Machine

/-- One transition of an agent, with the conditions under which it happens. -/
inductive Happens (s : State) : State → Prop where
  /-- An event that is not enabled. -/
  | stays : Happens s s
  /-- A pressed key ends the key wait (45_keypad_timers.md R234). -/
  | keyWaitEnds (x : Reg) (k : Fin 16) (run : s.run = .running) (wait : s.wait = some x) (key : s.keys[k] = true) :
      Happens s { s.setReg x (keyByte k) with wait := none }
  /-- A fetch above 0xFFE (40_execution_cycle.md R121). -/
  | fetchFault (run : s.run = .running) (wait : s.wait = none) :
      Happens s (s.raise .memoryOutOfBounds none (some s.pc))
  /-- A fatal condition of a fetched word (R123, R125). -/
  | instructionFault (c : Cause) (w : Word) (run : s.run = .running) (wait : s.wait = none)
      (pc : s.pc.toNat ≤ 0xFFE) : Happens s (s.preIncrement.raise c (some w) (some s.pc))
  /-- A fetched instruction completes. -/
  | instruction (i : Instr) (run : s.run = .running) (pc : s.pc.toNat ≤ 0xFFE) (noFault : fatalCause i s = none) :
      Happens s (completed i s)
  /-- A frame tick (60_exceptions.md R266). -/
  | tick (run : s.run = .running) (wait : s.wait = none) :
      Happens s
        { s with
          dt := countDown s.dt
          st := countDown s.st
          out := s.out ++ tickOutputs s
          run := if s.stopReq then .stopped else s.run
          stopReq := false }
  /-- The host sets the keys (R271). -/
  | setKeys (keys : Vector Bool 16) (run : s.run ≠ .faulted) : Happens s { s with keys := keys }
  /-- The host loads a program that is too long (R272). -/
  | loadFault (run : s.run = .stopped) : Happens s (s.raise .programTooLarge none none)
  /-- The host loads a program (R272). -/
  | load (bytes : List Byte) (run : s.run = .stopped) (fits : bytes.length ≤ 0xE00) :
      Happens s (s.setBytes 0x200 bytes)
  /-- The host starts a stopped machine (R270). -/
  | start (run : s.run = .stopped) : Happens s { s with run := .running }
  /-- The host requests a stop of a running machine (R270). -/
  | requestStop (run : s.run = .running) : Happens s { s with stopReq := true }

variable {s t : State}

theorem execWord_happens {w : Word} (run : s.run = .running) (wait : s.wait = none) (pc : s.pc.toNat ≤ 0xFFE)
    (h : execWord w s = .next t) : Happens s t := by
  unfold execWord at h
  split at h
  · rename_i i _
    obtain ⟨c, -, rfl⟩ | ⟨hc, rfl⟩ := exec_next_cases h
    · exact .instructionFault c (encode i) run wait pc
    · exact .instruction i run pc hc
  · cases h
    exact .instructionFault _ w run wait pc

theorem instructionStep_happens (h : instructionStep s = .next t) : Happens s t := by
  unfold instructionStep at h
  split at h
  · obtain ⟨run, wait⟩ := s.active_iff.1 ‹_›
    rcases fetch_cases s with ⟨e, pc⟩ | ⟨e, -⟩ <;> rw [e] at h
    · exact execWord_happens run wait pc h
    · cases h
      exact .fetchFault run wait
  · cases h
    exact .stays

theorem frameTick_happens (s : State) : Happens s (frameTick s) := by
  unfold frameTick
  split
  · obtain ⟨run, wait⟩ := s.active_iff.1 ‹_›
    exact .tick run wait
  · exact .stays

theorem hostLoad_happens {bytes : List Byte} (h : hostLoad bytes s = .next t) : Happens s t := by
  unfold hostLoad at h
  split at h
  · split at h <;> cases h
    · exact .loadFault ‹_›
    · exact .load bytes ‹_› (Nat.le_of_not_lt ‹_›)
  · cases h
  · cases h
    exact .stays

theorem hostStep_happens {op : HostOp} (h : hostStep op s = .next t) : Happens s t := by
  cases op with
  | load bytes => exact hostLoad_happens h
  | setKeys keys =>
    cases h
    unfold hostSetKeys
    split
    · exact .stays
    · exact .setKeys keys ‹_›
  | run =>
    cases h
    unfold hostRun
    split
    · exact .start ‹_›
    · exact .stays
  | stop =>
    cases h
    unfold hostStop
    split
    · exact .requestStop ‹_›
    · exact .stays

theorem perform_happens {e : Event} (h : perform e s = .next t) : Happens s t := by
  cases e with
  | instruction => exact instructionStep_happens h
  | frameTick =>
    cases h
    exact frameTick_happens s
  | host op => exact hostStep_happens h

/-- Every step of the machine is one transition of an agent, once its event is off the agenda. -/
theorem step_happens (h : step s = .next t) : ∃ rest, Happens { s with agenda := rest } t := by
  unfold step machineStep at h
  split at h
  · cases h
  · rcases resolveKeyWait_cases s with ⟨x, k, run, wait, key, e⟩ | ⟨e, -⟩ <;> rw [e] at h
    · cases h
      exact ⟨s.agenda, .keyWaitEnds x k run wait key⟩
    · cases ha : s.agenda with
      | nil =>
        rw [ha] at h
        exact ⟨s.agenda, instructionStep_happens h⟩
      | cons e rest =>
        rw [ha] at h
        exact ⟨rest, perform_happens h⟩

/-- What does not speak of the agenda and every transition keeps, every step keeps. -/
theorem step_keeps {P : State → Prop} (agenda : ∀ s rest, P s → P { s with agenda := rest })
    (happens : ∀ s t, Happens s t → P s → P t) (h : step s = .next t) (hs : P s) : P t := by
  obtain ⟨rest, ht⟩ := step_happens h
  exact happens _ _ ht (agenda s rest hs)

/-! ### The invariants -/

theorem Inv.with_agenda (h : Inv s) (rest : List Event) : Inv { s with agenda := rest } :=
  ⟨h.memory, h.stackClear, h.waitRunning, h.faultRecorded, h.stopPending⟩

/-- A stopped machine does not wait. -/
theorem Inv.wait_of_stopped (h : Inv s) (run : s.run = .stopped) : s.wait = none := by
  by_contra hw
  cases run.symm.trans (h.waitRunning hw)

/-- A machine that is not faulted has no record. -/
theorem Inv.fault_of_not_faulted (h : Inv s) (run : s.run ≠ .faulted) : s.fault = none :=
  not_not.1 (mt h.faultRecorded.1 run)

theorem Inv.preIncrement (h : Inv s) : Inv s.preIncrement :=
  ⟨h.memory, h.stackClear, h.waitRunning, h.faultRecorded, h.stopPending⟩

/-- A fatal condition outside the key wait keeps the invariants. -/
theorem Inv.raise (h : Inv s) (wait : s.wait = none) (c : Cause) (w a : Option Word) : Inv (s.raise c w a) where
  memory := h.memory
  stackClear := h.stackClear
  waitRunning hw := absurd wait hw
  faultRecorded := by simp
  stopPending _ := by simp

/-- A completed instruction of a running machine keeps the invariants. -/
theorem Inv.completed {i : Instr} (h : Inv s) (run : s.run = .running) (noFault : fatalCause i s = none) :
    Inv (completed i s) := by
  obtain ⟨hrun, hfault⟩ := completed_notFatal s i
  exact
    { memory := completed_wf s h.memory noFault
      stackClear := completed_stackClear s i h.stackClear
      waitRunning := fun _ => hrun.trans run
      faultRecorded := by rw [hfault, hrun]; exact h.faultRecorded
      stopPending := by simp [hrun, run] }

/-- A frame tick keeps the invariants: it stops the machine only outside the key wait, and clears the request. -/
theorem Inv.tick (h : Inv s) (run : s.run = .running) (wait : s.wait = none) (dt st : Byte) (out : List Output) :
    Inv { s with dt := dt, st := st, out := out, run := if s.stopReq then .stopped else s.run, stopReq := false } where
  memory := h.memory
  stackClear := h.stackClear
  waitRunning hw := absurd wait hw
  faultRecorded := by
    have hf := h.fault_of_not_faulted (by simp [run])
    cases hq : s.stopReq <;> simp [hf, run]
  stopPending hq := by cases hq

theorem Inv.start (h : Inv s) (run : s.run = .stopped) : Inv { s with run := .running } where
  memory := h.memory
  stackClear := h.stackClear
  waitRunning _ := rfl
  faultRecorded := by simp [h.fault_of_not_faulted (by simp [run])]
  stopPending _ := by simp

theorem Inv.happens (ht : Happens s t) (h : Inv s) : Inv t := by
  cases ht with
  | stays => exact h
  | keyWaitEnds => exact ⟨h.memory, h.stackClear, fun hw => absurd rfl hw, h.faultRecorded, h.stopPending⟩
  | fetchFault _ wait => exact h.raise wait ..
  | instructionFault _ _ _ wait => exact h.preIncrement.raise wait ..
  | instruction _ run _ noFault => exact h.completed run noFault
  | tick run wait => exact h.tick run wait ..
  | setKeys => exact ⟨h.memory, h.stackClear, h.waitRunning, h.faultRecorded, h.stopPending⟩
  | loadFault run => exact h.raise (h.wait_of_stopped run) ..
  | load bytes _ fits =>
    have range : bytes.length = 0 ∨ 0x200 + bytes.length ≤ 0x1000 := by omega
    exact ⟨Memory.wf_writeList h.memory range, h.stackClear, h.waitRunning, h.faultRecorded, h.stopPending⟩
  | start run => exact h.start run
  | requestStop run =>
    exact ⟨h.memory, h.stackClear, h.waitRunning, h.faultRecorded, fun _ => by simp [run]⟩

/-! ### The bound on `PC` -/

theorem PcBounded.happens (ht : Happens s t) (h : PcBounded s) : PcBounded t := by
  cases ht with
  | instructionFault _ _ _ _ pc =>
    have hpc : (s.pc + 2).toNat ≤ 0x10FE := by bv_omega
    exact ⟨hpc, h.stack⟩
  | instruction i _ pc => exact ⟨completed_pc_le s i pc h.stack, completed_stack_le s i pc h.stack⟩
  | _ => exact ⟨h.pc, h.stack⟩

/-! ### The parameters -/

theorem Happens.sameParameters (ht : Happens s t) : t.legacy = s.legacy ∧ t.font = s.font := by
  cases ht with
  | instruction i => exact ⟨(completed_sameControl s i).legacy, (completed_sameControl s i).font⟩
  | _ => exact ⟨rfl, rfl⟩

/-! ### Construction -/

theorem inv_construct (legacy : Bool) (font : Vector Byte 80) : Inv (State.construct legacy font) where
  memory := Memory.wf_construct legacy font
  stackClear k _ := by simp [State.construct]
  waitRunning hw := absurd rfl hw
  faultRecorded := by simp [State.construct]
  stopPending hq := by cases hq

theorem pcBounded_construct (legacy : Bool) (font : Vector Byte 80) : PcBounded (State.construct legacy font) where
  pc := by show (BitVec.ofNat 16 Config.programBase).toNat ≤ 0x10FE; decide
  stack k := by simp [State.construct]

/-- A constructed machine's memory is all unlisted. -/
theorem byteAt_construct (legacy : Bool) (font : Vector Byte 80) (a : Nat) :
    (State.construct legacy font).byteAt a = Memory.unlisted font a := rfl

/-! ### The statements about steps and construction -/

/-- Settles O54: every transition of an agent keeps the invariants (`Inv.happens`). -/
theorem everyStepKeepsTheInvariants : Obligations.EveryStepKeepsTheInvariants :=
  fun _ _ hs h => step_keeps (fun _ rest hs => hs.with_agenda rest) (fun _ _ => Inv.happens) h hs

/-- Settles O55: every transition of an agent keeps the bounds (`PcBounded.happens`). -/
theorem everyStepKeepsThePcBound : Obligations.EveryStepKeepsThePcBound :=
  fun _ _ hs h => step_keeps (fun _ _ hs => ⟨hs.pc, hs.stack⟩) (fun _ _ => PcBounded.happens) h hs

/-- Settles O57: no transition of an agent writes a parameter (`Happens.sameParameters`). -/
theorem parametersNeverChange : Obligations.ParametersNeverChange := by
  intro s t h
  obtain ⟨_, ht⟩ := step_happens h
  exact ht.sameParameters

/-- Settles O56, by evaluation of the constructed fields. -/
theorem constructionEstablishesTheInvariants : Obligations.ConstructionEstablishesTheInvariants :=
  ⟨fun legacy font => ⟨inv_construct legacy font, pcBounded_construct legacy font⟩, false, defaultFont, rfl⟩

/-- Settles O58: an address of a glyph reads its font byte, since nothing is listed. -/
theorem resetIsTheSourceState : Obligations.ResetIsTheSourceState := by
  rintro legacy font s rfl
  refine ⟨rfl, rfl, rfl, rfl, rfl, fun d k => ?_⟩
  rw [byteAt_construct, Memory.unlisted, dif_pos (by omega)]

/-- Settles O59, field by field; above the font an unlisted address reads 0. -/
theorem resetZeroesTheRest : Obligations.ResetZeroesTheRest := by
  rintro legacy font s rfl
  have mem : ∀ a, 0x50 ≤ a → (State.construct legacy font).byteAt a = 0 := fun a ha => by
    rw [byteAt_construct, Memory.unlisted, dif_neg (by omega)]
  have regs : ∀ r, (State.construct legacy font).reg r = 0 := fun r => by simp [State.construct, State.reg]
  have stack : ∀ k : Fin 16, (State.construct legacy font).stack[k] = 0 := fun k => by simp [State.construct]
  have keys : ∀ k : Fin 16, (State.construct legacy font).keys[k] = false := fun k => by simp [State.construct]
  exact ⟨regs, rfl, rfl, stack, rfl, rfl, mem, Display.pixel_blank, keys, rfl⟩

end Sys2Proof.Machine

/-!
Memory as its reads see it (20_memory.md): a canonical memory is determined by its reads, and a store is seen by the
next fetch.
-/

namespace Sys2Proof.Machine

/-! ### The reads of a canonical memory -/

section
variable {font : Vector Byte 80}

@[simp] theorem Memory.read_nil (a : Nat) : Memory.read font [] a = Memory.unlisted font a := rfl

@[simp] theorem Memory.read_cons_same (k : Nat) (b : Byte) (m : Memory) : Memory.read font ((k, b) :: m) k = b := by
  simp [Memory.read, Memory.lookup]

theorem Memory.read_cons_ne {k a : Nat} (h : a ≠ k) (b : Byte) (m : Memory) :
    Memory.read font ((k, b) :: m) a = Memory.read font m a := by
  simp [Memory.read, Memory.lookup, h]

/-- Below the addresses it may list, a canonical memory reads as unlisted. -/
theorem Memory.read_of_lt {lo a : Nat} {m : Memory} (hm : Memory.wfFrom font lo m = true) (ha : a < lo) :
    Memory.read font m a = Memory.unlisted font a := by
  induction m generalizing lo with
  | nil => rfl
  | cons cell m ih =>
    obtain ⟨k, b⟩ := cell
    obtain ⟨hk, -, -, htail⟩ := (Memory.wfFrom_cons ..).1 hm
    rw [Memory.read_cons_ne (by omega), ih htail (by omega)]

/-- The first listed address tells a canonical memory from every canonical memory that lists only higher ones. -/
theorem Memory.read_head_ne {lo k : Nat} {b : Byte} {m m' : Memory}
    (hm : Memory.wfFrom font lo ((k, b) :: m) = true) (hm' : Memory.wfFrom font (k + 1) m' = true) :
    Memory.read font ((k, b) :: m) k ≠ Memory.read font m' k := by
  obtain ⟨-, -, hb, -⟩ := (Memory.wfFrom_cons ..).1 hm
  rwa [Memory.read_cons_same, Memory.read_of_lt hm' k.lt_succ_self]

/-- A cell of a canonical memory lists an address of the address space. -/
theorem Memory.head_lt {lo k : Nat} {b : Byte} {m : Memory} (hm : Memory.wfFrom font lo ((k, b) :: m) = true) :
    k < 0x1000 :=
  ((Memory.wfFrom_cons ..).1 hm).2.1

/-- A canonical memory is canonical from its first listed address on. -/
theorem Memory.wfFrom_head {lo lo' k : Nat} {b : Byte} {m : Memory}
    (hm : Memory.wfFrom font lo ((k, b) :: m) = true) (h : lo' ≤ k) : Memory.wfFrom font lo' ((k, b) :: m) = true :=
  (Memory.wfFrom_cons ..).2 ⟨h, ((Memory.wfFrom_cons ..).1 hm).2⟩

/-- By induction on one memory: each first listed address is first in the other too, by `Memory.read_head_ne`. -/
theorem Memory.eq_of_read_eq {lo : Nat} {m₁ m₂ : Memory} (h₁ : Memory.wfFrom font lo m₁ = true)
    (h₂ : Memory.wfFrom font lo m₂ = true)
    (h : ∀ a < 0x1000, Memory.read font m₁ a = Memory.read font m₂ a) : m₁ = m₂ := by
  induction m₁ generalizing lo m₂ with
  | nil =>
    cases m₂ with
    | nil => rfl
    | cons cell m₂ => exact absurd (h _ (Memory.head_lt h₂)).symm (Memory.read_head_ne h₂ rfl)
  | cons cell₁ m₁ ih =>
    cases m₂ with
    | nil => exact absurd (h _ (Memory.head_lt h₁)) (Memory.read_head_ne h₁ rfl)
    | cons cell₂ m₂ =>
      obtain ⟨k₁, b₁⟩ := cell₁
      obtain ⟨k₂, b₂⟩ := cell₂
      obtain hlt | rfl | hgt := lt_trichotomy k₁ k₂
      · exact absurd (h k₁ (Memory.head_lt h₁)) (Memory.read_head_ne h₁ (Memory.wfFrom_head h₂ hlt))
      · obtain rfl : b₁ = b₂ := by simpa using h k₁ (Memory.head_lt h₁)
        obtain ⟨-, -, -, t₁⟩ := (Memory.wfFrom_cons ..).1 h₁
        obtain ⟨-, -, -, t₂⟩ := (Memory.wfFrom_cons ..).1 h₂
        refine congrArg _ (ih t₁ t₂ fun a ha => ?_)
        by_cases hak : a = k₁
        · subst hak
          rw [Memory.read_of_lt t₁ a.lt_succ_self, Memory.read_of_lt t₂ a.lt_succ_self]
        · simpa only [Memory.read_cons_ne hak] using h a ha
      · exact absurd (h k₂ (Memory.head_lt h₂)).symm (Memory.read_head_ne h₂ (Memory.wfFrom_head h₁ hgt))

end

/-! ### What a store leaves at `I`, and what the next step fetches -/

variable {s : State}

/-- A completed instruction leaves the bytes it stores at `I` and the following addresses. -/
theorem completed_byteAt_stored {i : Instr} {k : Nat} (hk : k < (storedBytes i s).length) :
    (completed i s).byteAt (effectiveAddress s k) = (storedBytes i s)[k] := by
  have h : effectiveAddress s 0 ≤ effectiveAddress s k ∧
      effectiveAddress s k < effectiveAddress s 0 + (storedBytes i s).length := by
    simp only [effectiveAddress]
    omega
  rw [State.byteAt, completed_font, completed_mem, Memory.read_writeList, dif_pos h]
  simp [effectiveAddress]

/-- `Fx55` leaves `Vk` at `I + k` (43_index_memory.md R194). -/
theorem completed_storeRegs_byteAt {x k : Reg} (hk : k ≤ x) :
    (completed (.storeRegs x) s).byteAt (effectiveAddress s k.val) = s.reg k :=
  (completed_byteAt_stored (by rw [length_storedBytes]; exact Nat.lt_succ_of_le hk)).trans (getElem_regsUpTo s x k _)

/-- With nothing on the agenda, an active machine executes the word at `PC` (40_execution_cycle.md R128). -/
theorem step_eq_execWord (run : s.run = .running) (wait : s.wait = none) (agenda : s.agenda = [])
    (pc : s.pc.toNat ≤ 0xFFE) :
    step s = execWord (wordOfBytes (s.byteAt s.pc.toNat) (s.byteAt (s.pc.toNat + 1))) s := by
  have hactive : s.active = true := s.active_iff.2 ⟨run, wait⟩
  have hfetch : fetch s = some (wordOfBytes (s.byteAt s.pc.toNat) (s.byteAt (s.pc.toNat + 1))) :=
    (fetch_cases s).elim And.left fun h => absurd pc (Nat.not_le_of_lt h.2)
  rw [step, machineStep_of_no_agenda s (by simp [run]) (resolveKeyWait_eq_none s (.inr (.inl wait))) agenda]
  simp only [instructionStep, hactive, hfetch, if_true]

theorem execWord_of_decode {w : Word} {i : Instr} (h : decode w = .ok i) : execWord w s = exec i s := by
  simp only [execWord, h]

/-! ### The statements about memory -/

/-- Settles O35: the completed `F155` leaves `V0`, `V1` at its `PC + 2`, which is where the next step fetches. -/
theorem storeIsSeenByTheNextFetch : Obligations.StoreIsSeenByTheNextFetch := by
  intro s run wait agenda pc index hdecode
  have hi : s.i.toNat = s.pc.toNat + 2 := by bv_omega
  have noFault : fatalCause (.storeRegs 1) s = none := if_neg (show ¬0xFFF < s.i.toNat + 1 by omega)
  refine ⟨completed (.storeRegs 1) s, ?_, completed_pc s rfl, ?_⟩
  · rw [step_eq_execWord run wait agenda (by omega), execWord_of_decode hdecode, exec_of_completes noFault]
  · obtain ⟨hrun, -⟩ := completed_notFatal s (.storeRegs 1)
    have hwait : (completed (.storeRegs 1) s).wait = s.wait := completed_wait s (by simp)
    have hagenda := (completed_sameControl s (.storeRegs 1)).agenda
    have hpc : (completed (.storeRegs 1) s).pc = s.i := (completed_pc s rfl).trans index.symm
    rw [step_eq_execWord (hrun.trans run) (hwait.trans wait) (hagenda.trans agenda) (by rw [hpc]; omega), hpc]
    exact congrArg₂ (fun b c => execWord (wordOfBytes b c) _) (completed_storeRegs_byteAt (k := 0) (by decide))
      (completed_storeRegs_byteAt (k := 1) (by decide))

/-- Settles O36: canonical memories that read the same list the same cells (`Memory.eq_of_read_eq`). -/
theorem canonicalMemoriesAreEqualByReads : Obligations.CanonicalMemoriesAreEqualByReads :=
  fun _ _ _ => Memory.eq_of_read_eq

end Sys2Proof.Machine

/-!
The encoding (30_encoding.md): `decode` and `encode` are inverse to each other between the legal words and the
well-formed instructions, and the legal words are those the 34 rows of the opcode map admit.
-/

namespace Sys2Proof

/-! ### Fields and shapes of a word (R91, R93) -/

/-- A field of a word as the spec extracts it, a shift and then a mask of `n` ones (R91). -/
theorem toNat_extractLsb'_eq_shift_mask (w mask : Word) (k n : Nat) (h : mask.toNat = 2 ^ n - 1) :
    (w.extractLsb' k n).toNat = ((w >>> k) &&& mask).toNat := by
  rw [BitVec.extractLsb'_toNat, BitVec.toNat_and, BitVec.toNat_ushiftRight, h, Nat.and_two_pow_sub_one_eq_mod]

/-- The high nibble needs no mask: nothing lies above it. -/
theorem opField_toNat (w : Word) : (opField w).toNat = (w >>> 12).toNat := by
  rw [opField, BitVec.extractLsb'_toNat, BitVec.toNat_ushiftRight]
  exact Nat.mod_eq_of_lt (by have := w.isLt; omega)

theorem notMem_immFamilies_of_mem_regImmFamilies :
    ∀ {op : BitVec 4}, op ∈ regImmFamilies → op ∉ immFamilies := by decide

theorem notMem_immFamilies_of_mem_regRegFamilies :
    ∀ {op : BitVec 4}, op ∈ regRegFamilies → op ∉ immFamilies := by decide

theorem notMem_regImmFamilies_of_mem_regRegFamilies :
    ∀ {op : BitVec 4}, op ∈ regRegFamilies → op ∉ regImmFamilies := by decide

theorem classify_of_mem_immFamilies {w : Word} (h : opField w ∈ immFamilies) :
    classify w = some (.imm (opField w) (nnnField w)) :=
  if_pos h

theorem classify_of_mem_regImmFamilies {w : Word} (h : opField w ∈ regImmFamilies) :
    classify w = some (.regImm (opField w) (xField w) (kkField w)) :=
  (if_neg (notMem_immFamilies_of_mem_regImmFamilies h)).trans (if_pos h)

theorem classify_of_mem_regRegFamilies {w : Word} (h : opField w ∈ regRegFamilies) :
    classify w = some (.regReg (opField w) (xField w) (yField w) (op2Field w)) :=
  (if_neg (notMem_immFamilies_of_mem_regRegFamilies h)).trans
    ((if_neg (notMem_regImmFamilies_of_mem_regRegFamilies h)).trans (if_pos h))

/-- The word a shape lays out (R93). -/
def Shape.word : Shape → Word
  | .imm op nnn => immWord op nnn
  | .regImm op x kk => regImmWord op x kk
  | .regReg op x y op2 => regRegWord op x y op2

/-- A word is classified into a shape that keeps all its bits. -/
theorem exists_classify_eq (w : Word) : ∃ sh, classify w = some sh ∧ sh.word = w := by
  rcases mem_families (opField w) with h | h | h
  · exact ⟨_, classify_of_mem_immFamilies h, immWord_fields w⟩
  · exact ⟨_, classify_of_mem_regImmFamilies h, regImmWord_fields w⟩
  · exact ⟨_, classify_of_mem_regRegFamilies h, regRegWord_fields w⟩

/-! ### Decoding an encoded instruction -/

/-- Encoding loses nothing of a well-formed instruction. -/
theorem decode_encode (i : Instr) (hwf : i.wf = true) : decode (encode i) = .ok i := by
  cases i with
  | cls | ret => decide
  | jp nnn | call nnn | ldI nnn | jpV0 nnn => exact decode_immWord nnn (by decide)
  | seImm x kk | sneImm x kk | ldImm x kk | addImm x kk | rnd x kk =>
    exact decode_regImmWord x kk (by decide) (by decide)
  | skp x | sknp x | ldVxDT x | ldVxK x | ldDTVx x | ldSTVx x | addI x | ldF x | ldB x | storeRegs x | loadRegs x =>
    exact decode_regImmWord x _ (by decide) (by decide)
  | seReg x y | ldReg x y | orReg x y | andReg x y | xorReg x y | addReg x y | subReg x y | shr x y | subn x y
  | shl x y | sneReg x y => exact decode_regRegWord x y _ (by decide) (by decide) (by decide)
  | drw x y n =>
    have hn : (BitVec.ofNat 4 n).toNat = n := Nat.mod_eq_of_lt (Nat.lt_succ_of_le (of_decide_eq_true hwf))
    calc decode (encode (.drw x y n))
      _ = .ok (.drw x y (BitVec.ofNat 4 n).toNat) := decode_regRegWord x y _ (by decide) (by decide) (by decide)
      _ = .ok (.drw x y n) := by rw [hn]

/-! ### Encoding a decoded word -/

/-- The instruction is well formed and its word is `w`. -/
def Instr.WrittenAs (i : Instr) (w : Word) : Prop := encode i = w ∧ i.wf = true

theorem writtenAs_of_matchImm {op : BitVec 4} {nnn : BitVec 12} {i : Instr} (h : matchImm op nnn = some i) :
    i.WrittenAs (immWord op nnn) := by
  unfold matchImm at h
  split_ifs at h <;> cases h <;> subst_vars <;> exact ⟨rfl, rfl⟩

theorem writtenAs_of_matchFamilyE {x : Reg} {kk : Byte} {i : Instr} (h : matchFamilyE x kk = some i) :
    i.WrittenAs (regImmWord 0xE x kk) := by
  unfold matchFamilyE at h
  split_ifs at h <;> cases h <;> subst_vars <;> exact ⟨rfl, rfl⟩

theorem writtenAs_of_matchFamilyF {x : Reg} {kk : Byte} {i : Instr} (h : matchFamilyF x kk = some i) :
    i.WrittenAs (regImmWord 0xF x kk) := by
  unfold matchFamilyF at h
  split_ifs at h <;> cases h <;> subst_vars <;> exact ⟨rfl, rfl⟩

theorem writtenAs_of_matchRegImm {op : BitVec 4} {x : Reg} {kk : Byte} {i : Instr}
    (h : matchRegImm op x kk = some i) : i.WrittenAs (regImmWord op x kk) := by
  unfold matchRegImm at h
  split_ifs at h <;> subst_vars
  iterate 5 · cases h; exact ⟨rfl, rfl⟩
  · exact writtenAs_of_matchFamilyE h
  · exact writtenAs_of_matchFamilyF h

theorem writtenAs_of_matchFamily8 {x y : Reg} {op2 : BitVec 4} {i : Instr} (h : matchFamily8 x y op2 = some i) :
    i.WrittenAs (regRegWord 0x8 x y op2) := by
  unfold matchFamily8 at h
  split_ifs at h <;> cases h <;> subst_vars <;> exact ⟨rfl, rfl⟩

/-- The nibble of family D is a sprite height that fits its field. -/
theorem drw_writtenAs (x y : Reg) (n : BitVec 4) : (Instr.drw x y n.toNat).WrittenAs (regRegWord 0xD x y n) :=
  ⟨congrArg (regRegWord 0xD x y) (by simp), decide_eq_true (Nat.le_of_lt_succ n.isLt)⟩

theorem writtenAs_of_matchRegReg {op : BitVec 4} {x y : Reg} {op2 : BitVec 4} {i : Instr}
    (h : matchRegReg op x y op2 = some i) : i.WrittenAs (regRegWord op x y op2) := by
  unfold matchRegReg at h
  split_ifs at h <;> subst_vars
  · cases h; exact ⟨rfl, rfl⟩
  · exact writtenAs_of_matchFamily8 h
  · cases h; exact ⟨rfl, rfl⟩
  · cases h; exact drw_writtenAs x y op2

theorem writtenAs_of_matchShape {sh : Shape} {i : Instr} (h : matchShape sh = some i) : i.WrittenAs sh.word := by
  cases sh with
  | imm op nnn => exact writtenAs_of_matchImm h
  | regImm op x kk => exact writtenAs_of_matchRegImm h
  | regReg op x y op2 => exact writtenAs_of_matchRegReg h

/-- Decoding drops no bit of a word: neither the classification nor the matched row does. -/
theorem encode_of_decode {w : Word} {i : Instr} (h : decode w = .ok i) : encode i = w ∧ i.wf = true := by
  obtain ⟨sh, hclass, hword⟩ := exists_classify_eq w
  cases hmatch : matchShape sh with
  | none => simp [decode, hclass, hmatch] at h
  | some j =>
    obtain rfl : j = i := by simpa [decode, hclass, hmatch] using h
    exact hword ▸ writtenAs_of_matchShape hmatch

/-! ### The words a row of the opcode map admits (R96) -/

open Laws.RowOfEncoding in
/-- The word of every instruction matches a row. -/
theorem rowOfEncoding (i : Instr) : Statement i :=
  Instr.casesOn i cls ret jp call seImm sneImm seReg ldImm addImm ldReg orReg andReg xorReg addReg subReg shr subn
    shl sneReg ldI jpV0 rnd drw skp sknp ldVxDT ldVxK ldDTVx ldSTVx addI ldF ldB storeRegs loadRegs

/-- Every word the row admits is legal. -/
def OpcodeRow.Legal (row : OpcodeRow) : Prop := ∀ w, row.admits w = true → ∃ i, decode w = .ok i

/-- A row that fixes the whole word. -/
theorem legal_word {p : Word} (h : ∃ i, decode p = .ok i) : OpcodeRow.Legal ⟨0xFFFF, p⟩ := by
  intro w hw
  have hword : w = p := BitVec.and_allOnes.symm.trans (eq_of_beq hw)
  exact hword ▸ h

/-- A slice of an admitted word is that of the pattern, where the mask has ones. -/
theorem slice_of_admits {mask p w : Word} {k n : Nat} (h : OpcodeRow.admits ⟨mask, p⟩ w = true)
    (hmask : mask.extractLsb' k n = BitVec.allOnes n) : w.extractLsb' k n = p.extractLsb' k n :=
  calc w.extractLsb' k n
    _ = w.extractLsb' k n &&& mask.extractLsb' k n := by rw [hmask, BitVec.and_allOnes]
    _ = (w &&& mask).extractLsb' k n := BitVec.extractLsb'_and.symm
    _ = p.extractLsb' k n := by rw [eq_of_beq h]

theorem opField_of_admits {mask p w : Word} (h : OpcodeRow.admits ⟨mask, p⟩ w = true)
    (hmask : opField mask = BitVec.allOnes 4) : opField w = opField p :=
  slice_of_admits h hmask

theorem kkField_of_admits {mask p w : Word} (h : OpcodeRow.admits ⟨mask, p⟩ w = true)
    (hmask : kkField mask = BitVec.allOnes 8) : kkField w = kkField p :=
  slice_of_admits h hmask

theorem op2Field_of_admits {mask p w : Word} (h : OpcodeRow.admits ⟨mask, p⟩ w = true)
    (hmask : op2Field mask = BitVec.allOnes 4) : op2Field w = op2Field p :=
  slice_of_admits h hmask

/-- A row of shape `Imm` that fixes the family. -/
theorem legal_immWord (op : BitVec 4) (h : ∀ nnn, ∃ i, decode (immWord op nnn) = .ok i) :
    OpcodeRow.Legal ⟨0xF000, immWord op 0⟩ := by
  intro w hw
  have hop : opField w = op := (opField_of_admits hw (by decide)).trans (opField_immWord op 0)
  rw [← immWord_fields w, hop]
  exact h _

/-- A row of shape `RegImm` that fixes the family. -/
theorem legal_regImmWord (op : BitVec 4) (h : ∀ x kk, ∃ i, decode (regImmWord op x kk) = .ok i) :
    OpcodeRow.Legal ⟨0xF000, regImmWord op 0 0⟩ := by
  intro w hw
  have hop : opField w = op := (opField_of_admits hw (by decide)).trans (opField_regImmWord op 0 0)
  rw [← regImmWord_fields w, hop]
  exact h _ _

/-- A row of shape `RegImm` that fixes the family and `kk`. -/
theorem legal_regImmWord_kk (op : BitVec 4) (kk : Byte) (h : ∀ x, ∃ i, decode (regImmWord op x kk) = .ok i) :
    OpcodeRow.Legal ⟨0xF0FF, regImmWord op 0 kk⟩ := by
  intro w hw
  have hop : opField w = op := (opField_of_admits hw (by decide)).trans (opField_regImmWord op 0 kk)
  have hkk : kkField w = kk := (kkField_of_admits hw (by decide)).trans (kkField_regImmWord op 0 kk)
  rw [← regImmWord_fields w, hop, hkk]
  exact h _

/-- A row of shape `RegReg` that fixes the family. -/
theorem legal_regRegWord (op : BitVec 4) (h : ∀ x y op2, ∃ i, decode (regRegWord op x y op2) = .ok i) :
    OpcodeRow.Legal ⟨0xF000, regRegWord op 0 0 0⟩ := by
  intro w hw
  have hop : opField w = op := (opField_of_admits hw (by decide)).trans (opField_regRegWord op 0 0 0)
  rw [← regRegWord_fields w, hop]
  exact h _ _ _

/-- A row of shape `RegReg` that fixes the family and `op2`. -/
theorem legal_regRegWord_op2 (op op2 : BitVec 4) (h : ∀ x y, ∃ i, decode (regRegWord op x y op2) = .ok i) :
    OpcodeRow.Legal ⟨0xF00F, regRegWord op 0 0 op2⟩ := by
  intro w hw
  have hop : opField w = op := (opField_of_admits hw (by decide)).trans (opField_regRegWord op 0 0 op2)
  have hop2 : op2Field w = op2 := (op2Field_of_admits hw (by decide)).trans (op2Field_regRegWord op 0 0 op2)
  rw [← regRegWord_fields w, hop, hop2]
  exact h _ _

/-- The word of a well-formed instruction is legal. -/
theorem legal_encode (i : Instr) (hwf : i.wf = true) : ∃ j, decode (encode i) = .ok j := ⟨i, decode_encode i hwf⟩

theorem opcodeRowsLow_legal : ∀ row ∈ opcodeRowsLow, row.Legal := by
  simp only [opcodeRowsLow, List.forall_mem_cons]
  exact ⟨legal_word (legal_encode .cls rfl), legal_word (legal_encode .ret rfl),
    legal_immWord 0x1 fun nnn => legal_encode (.jp nnn) rfl,
    legal_immWord 0x2 fun nnn => legal_encode (.call nnn) rfl,
    legal_regImmWord 0x3 fun x kk => legal_encode (.seImm x kk) rfl,
    legal_regImmWord 0x4 fun x kk => legal_encode (.sneImm x kk) rfl,
    legal_regRegWord_op2 0x5 0x0 fun x y => legal_encode (.seReg x y) rfl,
    legal_regImmWord 0x6 fun x kk => legal_encode (.ldImm x kk) rfl,
    legal_regImmWord 0x7 fun x kk => legal_encode (.addImm x kk) rfl,
    List.forall_mem_nil _⟩

theorem opcodeRowsAlu_legal : ∀ row ∈ opcodeRowsAlu, row.Legal := by
  simp only [opcodeRowsAlu, List.forall_mem_cons]
  exact ⟨legal_regRegWord_op2 0x8 0x0 fun x y => legal_encode (.ldReg x y) rfl,
    legal_regRegWord_op2 0x8 0x1 fun x y => legal_encode (.orReg x y) rfl,
    legal_regRegWord_op2 0x8 0x2 fun x y => legal_encode (.andReg x y) rfl,
    legal_regRegWord_op2 0x8 0x3 fun x y => legal_encode (.xorReg x y) rfl,
    legal_regRegWord_op2 0x8 0x4 fun x y => legal_encode (.addReg x y) rfl,
    legal_regRegWord_op2 0x8 0x5 fun x y => legal_encode (.subReg x y) rfl,
    legal_regRegWord_op2 0x8 0x6 fun x y => legal_encode (.shr x y) rfl,
    legal_regRegWord_op2 0x8 0x7 fun x y => legal_encode (.subn x y) rfl,
    legal_regRegWord_op2 0x8 0xE fun x y => legal_encode (.shl x y) rfl,
    legal_regRegWord_op2 0x9 0x0 fun x y => legal_encode (.sneReg x y) rfl,
    List.forall_mem_nil _⟩

theorem opcodeRowsHigh_legal : ∀ row ∈ opcodeRowsHigh, row.Legal := by
  simp only [opcodeRowsHigh, List.forall_mem_cons]
  exact ⟨legal_immWord 0xA fun nnn => legal_encode (.ldI nnn) rfl,
    legal_immWord 0xB fun nnn => legal_encode (.jpV0 nnn) rfl,
    legal_regImmWord 0xC fun x kk => legal_encode (.rnd x kk) rfl,
    legal_regRegWord 0xD fun x y n => ⟨_, decode_regRegWord x y n (by decide) (by decide) (by decide)⟩,
    legal_regImmWord_kk 0xE 0x9E fun x => legal_encode (.skp x) rfl,
    legal_regImmWord_kk 0xE 0xA1 fun x => legal_encode (.sknp x) rfl,
    legal_regImmWord_kk 0xF 0x07 fun x => legal_encode (.ldVxDT x) rfl,
    legal_regImmWord_kk 0xF 0x0A fun x => legal_encode (.ldVxK x) rfl,
    legal_regImmWord_kk 0xF 0x15 fun x => legal_encode (.ldDTVx x) rfl,
    legal_regImmWord_kk 0xF 0x18 fun x => legal_encode (.ldSTVx x) rfl,
    legal_regImmWord_kk 0xF 0x1E fun x => legal_encode (.addI x) rfl,
    legal_regImmWord_kk 0xF 0x29 fun x => legal_encode (.ldF x) rfl,
    legal_regImmWord_kk 0xF 0x33 fun x => legal_encode (.ldB x) rfl,
    legal_regImmWord_kk 0xF 0x55 fun x => legal_encode (.storeRegs x) rfl,
    legal_regImmWord_kk 0xF 0x65 fun x => legal_encode (.loadRegs x) rfl,
    List.forall_mem_nil _⟩

/-- Every row of the map admits legal words only. -/
theorem opcodeMap_legal {row : OpcodeRow} (h : row ∈ opcodeMap) : row.Legal := by
  rcases List.mem_append.1 h with h | h
  · rcases List.mem_append.1 h with h | h
    · exact opcodeRowsLow_legal row h
    · exact opcodeRowsAlu_legal row h
  · exact opcodeRowsHigh_legal row h

/-- Two rows of the map whose patterns agree on the bits both fix are the same row. -/
theorem eq_of_patterns_agree : ∀ r₁ ∈ opcodeMap, ∀ r₂ ∈ opcodeMap,
    r₁.pattern &&& r₂.mask = r₂.pattern &&& r₁.mask → r₁ = r₂ := by decide

/-- The patterns of two rows that admit one word agree on the bits both fix. -/
theorem patterns_agree_of_admits {r₁ r₂ : OpcodeRow} {w : Word} (h₁ : r₁.admits w = true)
    (h₂ : r₂.admits w = true) : r₁.pattern &&& r₂.mask = r₂.pattern &&& r₁.mask :=
  calc r₁.pattern &&& r₂.mask
    _ = w &&& r₁.mask &&& r₂.mask := by rw [eq_of_beq h₁]
    _ = w &&& r₂.mask &&& r₁.mask := by rw [BitVec.and_assoc, BitVec.and_assoc, BitVec.and_comm r₁.mask]
    _ = r₂.pattern &&& r₁.mask := by rw [eq_of_beq h₂]

/-! ### The statements about the encoding -/

/-- Settles O2: each shape's layout gives its fields back to the decoder (`decode_encode`). -/
theorem decodeOfEncodeIsIdentity : Obligations.DecodeOfEncodeIsIdentity := decode_encode

/-- Settles O3: classifying keeps every bit of the word, and so does each matched row (`encode_of_decode`). -/
theorem encodeOfDecodeIsIdentity : Obligations.EncodeOfDecodeIsIdentity := fun _ _ => encode_of_decode

/-- Settles O4: a legal word is an encoded instruction, whose row admits it; two rows that admit one word would
have patterns that agree, and no two different rows of the map do. -/
theorem legalWordsMatchOneRow : Obligations.LegalWordsMatchOneRow := by
  refine ⟨fun w => ⟨?_, ?_⟩, fun w r₁ r₂ m₁ m₂ h₁ h₂ => ?_⟩
  · rintro ⟨i, h⟩
    obtain ⟨hword, -⟩ := encode_of_decode h
    exact hword ▸ rowOfEncoding i
  · rintro ⟨row, hrow, hw⟩
    exact opcodeMap_legal hrow w hw
  · exact eq_of_patterns_agree r₁ m₁ r₂ m₂ (patterns_agree_of_admits h₁ h₂)

/-- Settles O1: the ten legal words are encoded instructions; the other three match no row. -/
theorem writtenOutWordsDecode : Obligations.WrittenOutWordsDecode :=
  ⟨decode_encode .cls rfl, decode_encode .ret rfl, decode_encode (.call 0xABC) rfl,
    decode_encode (.seImm 4 0x55) rfl, decode_encode (.shr 1 2) rfl, decode_encode (.jpV0 0x300) rfl,
    decode_encode (.drw 1 2 10) rfl, decode_encode (.skp 1) rfl, decode_encode (.ldVxK 3) rfl,
    decode_encode (.loadRegs 2) rfl, by decide, by decide, by decide⟩

/-- A word of family D is a sprite drawing, its low nibble the height (R102). -/
theorem decode_of_opField_eq_drw {w : Word} (h : opField w = 0xD) :
    decode w = .ok (.drw (xField w) (yField w) (op2Field w).toNat) :=
  calc decode w
    _ = decode (regRegWord 0xD (xField w) (yField w) (op2Field w)) := by rw [← h, regRegWord_fields]
    _ = .ok (.drw (xField w) (yField w) (op2Field w).toNat) :=
      decode_regRegWord _ _ _ (by decide) (by decide) (by decide)

/-- Settles O5: each field is a slice, and a slice is a shift and a mask. -/
theorem fieldsAreSlicesOfTheWord : Obligations.FieldsAreSlicesOfTheWord := by
  intro w
  have hop2 : (op2Field w).toNat = (w &&& 0xF).toNat := toNat_extractLsb'_eq_shift_mask w 0xF 0 4 rfl
  refine ⟨opField_toNat w, toNat_extractLsb'_eq_shift_mask w 0xFFF 0 12 rfl,
    toNat_extractLsb'_eq_shift_mask w 0xF 8 4 rfl, toNat_extractLsb'_eq_shift_mask w 0xF 4 4 rfl,
    toNat_extractLsb'_eq_shift_mask w 0xFF 0 8 rfl, hop2, fun hD => ?_⟩
  have hop : opField w = 0xD := BitVec.eq_of_toNat_eq (by rw [opField_toNat, hD]; rfl)
  rw [← hop2]
  exact decode_of_opField_eq_drw hop

/-- Settles O6: the three family lists cover every high nibble, and each gives its own shape. -/
theorem everyWordHasOneShape : Obligations.EveryWordHasOneShape := fun w =>
  (mem_families (opField w)).imp (fun h => ⟨h, classify_of_mem_immFamilies h⟩) <|
    Or.imp (fun h => ⟨h, classify_of_mem_regImmFamilies h⟩) fun h => ⟨h, classify_of_mem_regRegFamilies h⟩

end Sys2Proof

/-!
The instruction cycle (40_execution_cycle.md): what an instruction step and a frame tick are, said once for each case
(not enabled, a fetch inside memory, a fetch above 0xFFE), and which of them a step of the machine is.
-/

namespace Sys2Proof.Machine

variable {s : State} {rest : List Event}

/-! ### One instruction step and one frame tick -/

theorem instructionStep_of_not_active (inactive : ¬s.active = true) : instructionStep s = .next s := if_neg inactive

theorem frameTick_of_not_active (inactive : ¬s.active = true) : frameTick s = s := if_neg inactive

/-- A word that is no instruction is unrecognized, since the decode failure is unreachable (R123; 30_encoding.md R95). -/
theorem execWord_of_decode_error {w : Word} {e : DecodeError} (h : decode w = .error e) :
    execWord w s = .next (s.preIncrement.raise .unrecognizedInstruction (some w) (some s.pc)) := by
  obtain rfl := decode_error h
  simp only [execWord, h, causeOfDecodeError]

/-- An active machine executes the word at `PC`, where both its bytes exist (R121, R128). -/
theorem instructionStep_eq_execWord (active : s.active = true) (pc : s.pc.toNat ≤ 0xFFE) :
    instructionStep s = execWord (wordOfBytes (s.byteAt s.pc.toNat) (s.byteAt (s.pc.toNat + 1))) s := by
  obtain ⟨hfetch, -⟩ | ⟨-, hpc⟩ := fetch_cases s
  · simp only [instructionStep, active, if_true, hfetch]
  · omega

/-- An active machine faults where a byte of the word would lie above 0xFFF, and `PC` stays (R121, decision D6). -/
theorem instructionStep_of_pc_gt (active : s.active = true) (pc : 0xFFE < s.pc.toNat) :
    instructionStep s = .next (s.raise .memoryOutOfBounds none (some s.pc)) := by
  obtain ⟨-, hpc⟩ | ⟨hfetch, -⟩ := fetch_cases s
  · omega
  · simp only [instructionStep, active, if_true, hfetch]

/-! ### Which of them a step is -/

/-- With nothing on the agenda, or an instruction event first, the step of an active machine is an instruction step:
no key wait comes before it (log entry 14). -/
theorem step_eq_instructionStep (active : s.active = true)
    (next : (s.agenda = [] ∧ rest = []) ∨ s.agenda = .instruction :: rest) :
    step s = instructionStep { s with agenda := rest } := by
  obtain ⟨run, wait⟩ := s.active_iff.1 active
  have live : s.run ≠ .faulted := by simp [run]
  have noKey : resolveKeyWait s = none := resolveKeyWait_eq_none s (.inr (.inl wait))
  obtain ⟨agenda, rfl⟩ | agenda := next
  · rw [← agenda]
    exact machineStep_of_no_agenda s live noKey agenda
  · exact machineStep_of_agenda s live noKey agenda

/-- Where no instruction step, no frame tick and no end of a key wait is enabled, only the event leaves the agenda. -/
theorem step_of_not_enabled (live : s.run ≠ .faulted) (noKey : resolveKeyWait s = none)
    (inactive : ¬s.active = true) :
    (s.agenda = [] → step s = .next s) ∧
      ∀ e rest, s.agenda = e :: rest → e = .instruction ∨ e = .frameTick → step s = .next { s with agenda := rest } := by
  refine ⟨fun agenda => ?_, fun e rest agenda h => ?_⟩
  · exact (machineStep_of_no_agenda s live noKey agenda).trans (instructionStep_of_not_active inactive)
  · rw [step, machineStep_of_agenda s live noKey agenda]
    obtain rfl | rfl := h
    · exact instructionStep_of_not_active inactive
    · exact congrArg Host.Outcome.next (frameTick_of_not_active inactive)

/-! ### The statements about the instruction cycle -/

/-- Settles O13: a next state of `exec` is a fatal condition taken, or a completed instruction, which never halts the
machine (`completed_notFatal`). -/
theorem fatalInstructionsCommitOnlyThePreIncrement : Obligations.FatalInstructionsCommitOnlyThePreIncrement := by
  intro i s t h live halted
  obtain ⟨c, -, rfl⟩ | ⟨-, rfl⟩ := exec_next_cases h
  · exact ⟨_, rfl⟩
  · obtain ⟨hrun, -⟩ := completed_notFatal s i
    exact absurd (hrun.symm.trans halted) live

/-- Settles O28: a fatal condition leaves the pre-increment, and so does a completed instruction that is no transfer
(`completed_pc`). -/
theorem otherInstructionsFallThrough : Obligations.OtherInstructionsFallThrough := by
  intro i s t h
  obtain ⟨c, -, rfl⟩ | ⟨noFault, rfl⟩ := exec_next_cases h
  · exact .inl rfl
  · cases transfer : transfersControl i with
    | false => exact .inl (completed_pc s transfer)
    | true => exact .inr ⟨rfl, noFault⟩

/-- Settles O7: the step is an instruction step, which executes the word at `PC`. -/
theorem stepRunsTheDecodedInstruction : Obligations.StepRunsTheDecodedInstruction := by
  intro s i run wait pc decoded
  refine ⟨fun agenda => ?_, fun rest agenda => ?_⟩
  · exact (step_eq_execWord run wait agenda pc).trans (execWord_of_decode decoded)
  · have active : s.active = true := s.active_iff.2 ⟨run, wait⟩
    calc step s
      _ = instructionStep { s with agenda := rest } := step_eq_instructionStep active (.inr agenda)
      _ = execWord _ { s with agenda := rest } := instructionStep_eq_execWord active pc
      _ = exec i { s with agenda := rest } := execWord_of_decode decoded

/-- Settles O8: the step is an instruction step, whose fetch gives a word that is no instruction, or fails. -/
theorem badFetchesAreFatal : Obligations.BadFetchesAreFatal := by
  intro s rest run wait next
  have active : s.active = true := s.active_iff.2 ⟨run, wait⟩
  rw [step_eq_instructionStep active next]
  refine ⟨fun e pc undecoded => ?_, fun pc => ?_⟩
  · exact (instructionStep_eq_execWord (s := { s with agenda := rest }) active pc).trans
      (execWord_of_decode_error undecoded)
  · exact instructionStep_of_pc_gt active pc

/-- Settles O9: a stopped machine is not active and waits for no key; in the wait it is not active, and no key ends it. -/
theorem nothingHappensWhereNoStepIsEnabled : Obligations.NothingHappensWhereNoStepIsEnabled := by
  rintro s (stopped | ⟨running, ⟨x, wait⟩, noKey⟩)
  · exact step_of_not_enabled (by simp [stopped]) (resolveKeyWait_eq_none s (.inl (by simp [stopped])))
      (by simp [State.active_iff, stopped])
  · exact step_of_not_enabled (by simp [running]) (resolveKeyWait_eq_none s (.inr (.inr noKey)))
      (by simp [State.active_iff, wait])

end Sys2Proof.Machine

/-!
Control transfer (41_flow.md): where the jumps and skips leave `PC`, and what the call stack holds after a call, a
return, and a call followed by a return.
-/

namespace Sys2Proof.Machine

/-! ### Fatal conditions, jumps and skips -/

section

variable {s : State} {i : Instr}

/-- An instruction that the table gives a fatal condition halts the machine with it. -/
theorem haltsWith_of_fatal {c : Cause} (hc : fatalCause i s = some c) : HaltsWith i s c :=
  ⟨some s.pc, exec_of_fatal hc⟩

/-- An instruction that completes and may write no register sets `PC` alone among the registers. -/
theorem setsPc_of_completes {target : Word} (noFault : fatalCause i s = none) (pc : (completed i s).pc = target)
    (noReg : ∀ r, mayWriteReg i r = false) : SetsPc i s target :=
  ⟨_, exec_of_completes noFault, completed_notFatal s i, pc, fun r => completed_reg s (noReg r)⟩

/-- A skip counts from the address of the next instruction (40_execution_cycle.md R127). -/
theorem State.pc_preIncrement_skipIf (p : Prop) [Decidable p] :
    (s.preIncrement.skipIf (decide p)).pc = if p then s.pc + 4 else s.pc + 2 := by
  rw [State.skipIf_eq, State.setPc_pc, State.preIncrement_pc, BitVec.add_assoc]
  simp only [decide_eq_true_eq]
  rfl

/-- An instruction that completes with a skip on `p` sets `PC` alone among the registers. -/
theorem setsPc_of_skipIf {p : Prop} [Decidable p] (noFault : fatalCause i s = none)
    (skip : completed i s = s.preIncrement.skipIf (decide p)) (noReg : ∀ r, mayWriteReg i r = false) :
    SetsPc i s (if p then s.pc + 4 else s.pc + 2) :=
  setsPc_of_completes noFault (skip ▸ State.pc_preIncrement_skipIf p) noReg

/-- A skip where `p` fails, with the two targets in the order of `p`. -/
theorem setsPc_of_skipIf_not {p : Prop} [Decidable p] (noFault : fatalCause i s = none)
    (skip : completed i s = s.preIncrement.skipIf (decide (¬p))) (noReg : ∀ r, mayWriteReg i r = false) :
    SetsPc i s (if p then s.pc + 2 else s.pc + 4) :=
  ite_not p (s.pc + 4) (s.pc + 2) ▸ setsPc_of_skipIf noFault skip noReg

end

/-! ### A call and a return -/

variable (s : State)

/-- A call completes below depth 16 (41_flow.md R142). -/
theorem exec_call (nnn : BitVec 12) (h : s.sp.val < 16) : exec (.call nnn) s = .next (completed (.call nnn) s) :=
  exec_of_completes (if_neg (by omega))

/-- A return completes above depth 0 (R140). -/
theorem exec_ret (h : 0 < s.sp.val) : exec .ret s = .next (completed .ret s) :=
  exec_of_completes (if_neg (by omega))

theorem State.sp_pushed (w : Word) (h : s.sp.val < 16) : (s.pushed w).sp.val = s.sp.val + 1 :=
  Nat.min_eq_left h

/-- The slot below the new depth holds the word pushed. -/
theorem State.top_pushed (w : Word) (h : s.sp.val < 16) : (s.pushed w).stack[(s.pushed w).sp.val - 1] = w := by
  simp only [s.sp_pushed w h, Nat.add_sub_cancel]
  exact (s.getElem_pushed w ⟨s.sp.val, h⟩).trans (if_pos rfl)

theorem State.sp_popped_pushed (w : Word) (h : s.sp.val < 16) : (s.pushed w).popped.sp = s.sp :=
  Fin.ext <| calc (s.pushed w).sp.val - 1
    _ = s.sp.val + 1 - 1 := by rw [s.sp_pushed w h]
    _ = s.sp.val := Nat.add_sub_cancel _ 1

/-- A pop gives back the stack before the push where the slot pushed on was clear (90_conflicts.md C2). -/
theorem State.stack_popped_pushed (w : Word) (h : s.sp.val < 16) (clear : s.stack[s.sp.val] = 0) :
    (s.pushed w).popped.stack = s.stack := by
  refine Vector.ext fun k hk => ?_
  have hpop := (s.pushed w).getElem_popped ⟨k, hk⟩
  rw [s.sp_pushed w h, Nat.add_sub_cancel] at hpop
  refine hpop.trans ?_
  split
  case isTrue top => subst top; exact clear.symm
  case isFalse below => exact (s.getElem_pushed w ⟨k, hk⟩).trans (if_neg below)

/-- A pop undoes a push onto a clear slot. -/
theorem State.popped_pushed (w : Word) (h : s.sp.val < 16) (clear : s.stack[s.sp.val] = 0) :
    (s.pushed w).popped = s :=
  calc (s.pushed w).popped
    _ = { s with stack := (s.pushed w).popped.stack, sp := (s.pushed w).popped.sp } := rfl
    _ = s := by rw [s.stack_popped_pushed w h clear, s.sp_popped_pushed w h]

/-- A return that follows a call pops what the call pushed, and resumes there. -/
theorem completed_ret_completed_call (nnn : BitVec 12) (h : s.sp.val < 16) :
    completed .ret (completed (.call nnn) s) = (s.pushed (s.pc + 2)).popped.setPc (s.pc + 2) :=
  congrArg (s.pushed (s.pc + 2)).popped.setPc (s.top_pushed (s.pc + 2) h)

/-- A return completes after a call. -/
theorem exec_ret_completed_call (nnn : BitVec 12) (h : s.sp.val < 16) :
    exec .ret (completed (.call nnn) s) = .next ((s.pushed (s.pc + 2)).popped.setPc (s.pc + 2)) := by
  have depth : (completed (.call nnn) s).sp.val = s.sp.val + 1 := s.sp_pushed (s.pc + 2) h
  rw [exec_ret _ (by omega), completed_ret_completed_call s nnn h]

/-! ### The statements about control transfer -/

/-- Settles O24: the slot pushed on is clear by the invariant, so the pop undoes the push. -/
theorem callThenReturnRestoresTheState : Obligations.CallThenReturnRestoresTheState := by
  intro nnn s inv h
  have clear : s.stack[s.sp.val] = 0 := inv.stackClear ⟨s.sp.val, h⟩ (Nat.le_refl _)
  refine ⟨_, exec_call s nnn h, ?_⟩
  rw [exec_ret_completed_call s nnn h, s.popped_pushed _ h clear]
  rfl

/-- Settles O21: both jumps complete; the sum of two zero-extended operands is the operand of their sum. -/
theorem jumpTargets : Obligations.JumpTargets := by
  intro nnn s
  refine ⟨setsPc_of_completes rfl ?_ fun _ => rfl, setsPc_of_completes rfl ?_ fun _ => rfl⟩
  · rw [BitVec.ofNat_toNat]
    rfl
  · rw [BitVec.ofNat_add, BitVec.ofNat_toNat, BitVec.ofNat_toNat]
    rfl

/-- Settles O22: below depth 16 the call completes with a push, which the return pops; at depth 16 the table gives the
stack overflow. -/
theorem callPushesTheReturnAddress : Obligations.CallPushesTheReturnAddress := by
  refine fun nnn s => ⟨fun h => ?_, fun full => haltsWith_of_fatal (if_pos full.ge)⟩
  have target : (addressOperand nnn).toNat = nnn.toNat := BitVec.toNat_setWidth_of_le (by decide)
  have pushed := s.getElem_pushed (s.pc + 2)
  refine ⟨_, exec_call s nnn h, completed_notFatal s _, target, s.sp_pushed (s.pc + 2) h, ?slot, ?otherSlots,
    fun _ => rfl, _, exec_ret_completed_call s nnn h, rfl, s.sp_popped_pushed (s.pc + 2) h⟩
  case slot => exact (pushed ⟨s.sp.val, h⟩).trans (if_pos rfl)
  case otherSlots => exact fun k hk => (pushed k).trans (if_neg hk.symm)

/-- Settles O23: above depth 0 the return completes with a pop; at depth 0 the table gives the stack underflow. -/
theorem returnPopsTheReturnAddress : Obligations.ReturnPopsTheReturnAddress := by
  refine fun s => ⟨fun h => ?_, fun empty => haltsWith_of_fatal (if_pos empty)⟩
  have popped := s.getElem_popped
  refine ⟨_, exec_ret s h, completed_notFatal s _, rfl, rfl, ?slot, ?otherSlots, fun _ => rfl⟩
  case slot => exact (popped ⟨s.sp.val - 1, by omega⟩).trans (if_pos rfl)
  case otherSlots => exact fun k hk => (popped k).trans (if_neg hk.symm)

/-- Settles O25: both complete with a skip, on the equality or on its negation. -/
theorem skipsOnImmediate : Obligations.SkipsOnImmediate := fun _ _ _ =>
  ⟨setsPc_of_skipIf rfl rfl fun _ => rfl, setsPc_of_skipIf_not rfl rfl fun _ => rfl⟩

/-- Settles O26: both complete with a skip, on the equality or on its negation. -/
theorem skipsOnRegister : Obligations.SkipsOnRegister := fun _ _ _ =>
  ⟨setsPc_of_skipIf rfl rfl fun _ => rfl, setsPc_of_skipIf_not rfl rfl fun _ => rfl⟩

end Sys2Proof.Machine

/-!
Registers, arithmetic, logic, shifts and the random byte (42_alu.md): each instruction completes with one register
written, or with a register and then VF, and byte arithmetic is that of the exact integers modulo 256 (R172).
-/

namespace Sys2Proof.Machine

/-! ### One register written, or a register and then VF -/

section

variable {s : State} {i : Instr} {x : Reg}

/-- An instruction that writes `b` to `Vx` after the pre-increment sets `Vx` alone. -/
theorem setsReg_of_exec {b : Byte} (h : exec i s = .next (s.preIncrement.setReg x b)) : SetsReg i s x b :=
  ⟨_, h, ⟨rfl, rfl⟩, rfl, State.reg_setReg_same _ x b, fun _ hr => State.reg_setReg_ne _ hr b⟩

/-- An instruction that writes `b` to `Vx` and then `f` to VF leaves `f` in VF, even where VF is `Vx` (R173). -/
theorem setsRegAndFlag_of_exec {b f : Byte} (h : exec i s = .next (s.preIncrement.setRegThenFlag x b f)) :
    SetsRegAndFlag i s x b f :=
  ⟨_, h, ⟨rfl, rfl⟩, rfl, State.reg_setReg_same _ flagReg f,
    fun hx => (State.reg_setReg_ne _ hx f).trans (State.reg_setReg_same _ x b),
    fun _ hr hf => State.reg_setRegThenFlag_ne _ b f (not_or.2 ⟨hr, hf⟩)⟩

end

/-! ### Byte arithmetic by the exact integers (R172) -/

theorem add_eq_ofNat (a b : Byte) : a + b = BitVec.ofNat 8 ((a.toNat + b.toNat) % 256) := by bv_omega

theorem sub_eq_ofNat (a b : Byte) : a - b = BitVec.ofNat 8 ((256 + a.toNat - b.toNat) % 256) := by bv_omega

theorem ushiftRight_one_eq_ofNat (a : Byte) : a >>> 1 = BitVec.ofNat 8 (a.toNat / 2) := by
  refine BitVec.eq_of_toNat_eq ?_
  rw [BitVec.toNat_ushiftRight, Nat.shiftRight_one, BitVec.toNat_ofNat]
  omega

theorem shiftLeft_one_eq_ofNat (a : Byte) : a <<< 1 = BitVec.ofNat 8 (2 * a.toNat % 256) := by
  refine BitVec.eq_of_toNat_eq ?_
  rw [BitVec.toNat_shiftLeft, Nat.shiftLeft_eq, BitVec.toNat_ofNat]
  omega

/-! ### Flags by the exact integers -/

theorem flagByte_decide (p : Prop) [Decidable p] : flagByte (decide p) = if p then 1 else 0 := by
  simp only [flagByte, decide_eq_true_eq]

/-- A bit of a byte, as a flag. -/
theorem flagByte_getLsbD (a : Byte) (k : Nat) : flagByte (a.getLsbD k) = BitVec.ofNat 8 (a.toNat / 2 ^ k % 2) := by
  rw [← Nat.toNat_testBit]
  unfold BitVec.getLsbD
  cases a.toNat.testBit k <;> rfl

theorem lowBitOut_eq_ofNat (a : Byte) : lowBitOut a = BitVec.ofNat 8 (a.toNat % 2) := by
  rw [lowBitOut, flagByte_getLsbD, pow_zero, Nat.div_one]

theorem highBitOut_eq_ofNat (a : Byte) : highBitOut a = BitVec.ofNat 8 (a.toNat / 128) := by
  have bit : a.toNat / 128 < 2 := Nat.div_lt_of_lt_mul a.isLt
  exact (flagByte_getLsbD a 7).trans (congrArg (BitVec.ofNat 8) (Nat.mod_eq_of_lt bit))

/-- The source of a shift as a number: `Vy` in legacy mode and `Vx` otherwise (R168, R170). -/
theorem toNat_shiftSource (s : State) (x y : Reg) :
    (shiftSource s x y).toNat = if s.legacy = true then (s.reg y).toNat else (s.reg x).toNat :=
  apply_ite BitVec.toNat _ _ _

/-! ### The statements about registers, arithmetic, logic and shifts -/

/-- Settles O14: both write `Vx` alone, and the sum of bytes is the sum modulo 256 (`add_eq_ofNat`). -/
theorem immediateInstructions : Obligations.ImmediateInstructions := fun x kk s =>
  ⟨setsReg_of_exec rfl, add_eq_ofNat (s.reg x) kk ▸ setsReg_of_exec rfl⟩

/-- Settles O15: all four write `Vx` alone, and the operations on bytes act on each bit. -/
theorem copyAndLogicInstructions : Obligations.CopyAndLogicInstructions := fun _ _ _ =>
  ⟨setsReg_of_exec rfl, ⟨_, setsReg_of_exec rfl, fun _ _ => BitVec.getLsbD_or⟩,
    ⟨_, setsReg_of_exec rfl, fun _ _ => BitVec.getLsbD_and⟩, ⟨_, setsReg_of_exec rfl, fun _ _ => BitVec.getLsbD_xor⟩⟩

/-- Settles O16: the sum goes to `Vx` and the carry, a flag on the exact sum, to VF after it. -/
theorem addSetsCarry : Obligations.AddSetsCarry := by
  intro x y s
  rw [← add_eq_ofNat, ← flagByte_decide]
  exact setsRegAndFlag_of_exec rfl

/-- Settles O17: the difference goes to `Vx` and NOT borrow, a flag on the exact operands, to VF after it. -/
theorem subtractSetsNotBorrow : Obligations.SubtractSetsNotBorrow := by
  intro x y s
  rw [← sub_eq_ofNat, ← sub_eq_ofNat, ← flagByte_decide, ← flagByte_decide]
  exact ⟨setsRegAndFlag_of_exec rfl, setsRegAndFlag_of_exec rfl⟩

/-- Settles O18: the source shifted goes to `Vx` and its low or high bit to VF after it. -/
theorem shiftsByOneSetTheBitShiftedOut : Obligations.ShiftsByOneSetTheBitShiftedOut := by
  intro x y s src source
  rw [source, ← toNat_shiftSource]
  constructor
  · rw [← ushiftRight_one_eq_ofNat, ← lowBitOut_eq_ofNat]
    exact setsRegAndFlag_of_exec rfl
  · rw [← shiftLeft_one_eq_ofNat, ← highBitOut_eq_ofNat]
    exact setsRegAndFlag_of_exec rfl

/-- Settles O19: the draw masked by `kk` goes to `Vx`, and a bit that `kk` clears is clear in any AND with it. -/
theorem randomByteIsMasked : Obligations.RandomByteIsMasked := by
  intro x kk s
  have masked : (completed (.rnd x kk) s).reg x = Config.randomByte s.draws &&& kk := State.reg_setReg_same _ x _
  refine ⟨_, exec_of_completes rfl, completed_notFatal s _, rfl, masked, rfl, fun k clear => ?_, fun r hr => ?_⟩
  · rw [masked, BitVec.getLsbD_and, clear, Bool.and_false]
  · exact completed_reg s (decide_eq_false hr)

end Sys2Proof.Machine

/-!
The index register and memory (43_index_memory.md): what the instructions leave in `I`, at the addresses from `I` on,
and in the registers they load.
-/

namespace Sys2Proof.Machine

variable {s : State}

/-! ### The index register -/

/-- An instruction that completes, is no transfer and may write no register sets `I` alone beside `PC`. -/
theorem setsIndex_of_completes {i : Instr} {w : Word} (noFault : fatalCause i s = none)
    (noTransfer : transfersControl i = false) (index : (completed i s).i = w) (noReg : ∀ r, mayWriteReg i r = false) :
    SetsIndex i s w :=
  ⟨_, exec_of_completes noFault, completed_notFatal s i, completed_pc s noTransfer, index,
    fun r => completed_reg s (noReg r)⟩

/-- The sum that `Fx1E` leaves is that of the exact integers modulo 0x10000 (43_index_memory.md R191). -/
theorem add_wideReg_eq_ofNat (w : Word) (x : Reg) :
    w + wideReg s x = BitVec.ofNat 16 ((w.toNat + (s.reg x).toNat) % 0x10000) := by
  have wide : (wideReg s x).toNat = (s.reg x).toNat := BitVec.toNat_setWidth_of_le (by decide)
  bv_omega

/-- Inside 16 bits, `I` advances by the exact number of bytes, and in legacy mode only (R194). -/
theorem State.toNat_advanceIndex {n : Nat} (h : s.i.toNat + n < 0x10000) :
    (s.advanceIndex n).i.toNat = s.i.toNat + if s.legacy = true then n else 0 := by
  rw [State.advanceIndex_eq, State.setIndex_i]
  split
  · rw [BitVec.toNat_add, BitVec.toNat_ofNat]
    omega
  · rfl

/-! ### Memory from `I` on -/

/-- Outside the `n + 1` bytes it stores, an instruction keeps memory. -/
theorem completed_byteAt_outside {i : Instr} {n a : Nat} (hn : storedLength i = n + 1)
    (ha : a < s.i.toNat ∨ s.i.toNat + n < a) : (completed i s).byteAt a = s.byteAt a := by
  refine completed_byteAt s ?_
  rw [effectiveAddress, hn]
  omega

/-- An instruction that stores nothing keeps memory. -/
theorem completed_byteAt_of_stores_nothing {i : Instr} (hn : storedLength i = 0) (a : Nat) :
    (completed i s).byteAt a = s.byteAt a := by
  refine completed_byteAt s ?_
  rw [hn]
  omega

/-- The decimal digits by the exact integers (R193). -/
theorem map_toNat_decimalDigits (b : Byte) :
    (decimalDigits b).map BitVec.toNat = [b.toNat / 100, b.toNat / 10 % 10, b.toNat % 10] := by
  have hb := b.isLt
  simp only [decimalDigits, List.map_cons, List.map_nil, BitVec.toNat_ofNat, List.cons.injEq, and_true]
  omega

/-- `Fx33` leaves the decimal digits of `Vx` at `I`, `I + 1` and `I + 2` (R193). -/
theorem completed_ldB_byteAt (x : Reg) {k : Nat} (hk : k < 3) :
    ((completed (.ldB x) s).byteAt (effectiveAddress s k)).toNat =
      [(s.reg x).toNat / 100, (s.reg x).toNat / 10 % 10, (s.reg x).toNat % 10][k] := by
  simp only [← map_toNat_decimalDigits, List.getElem_map]
  exact congrArg BitVec.toNat (completed_byteAt_stored (i := .ldB x) hk)

/-- `Fx65` leaves the byte at `I + k` in `Vk` (R195). -/
theorem completed_loadRegs_reg {x k : Reg} (hk : k ≤ x) :
    (completed (.loadRegs x) s).reg k = s.byteAt (effectiveAddress s k.val) := by
  have read : k.val < (s.bytesAt (effectiveAddress s 0) (x.val + 1)).length := by
    rw [State.length_bytesAt]
    exact Nat.lt_succ_of_le hk
  calc (completed (.loadRegs x) s).reg k
    _ = (s.preIncrement.setRegs (s.bytesAt (effectiveAddress s 0) (x.val + 1))).reg k := State.reg_advanceIndex ..
    _ = (s.bytesAt (effectiveAddress s 0) (x.val + 1))[k.val] := by rw [State.reg_setRegs, dif_pos read]
    _ = s.byteAt (effectiveAddress s k.val) := s.getElem_bytesAt _ _ _ read

/-- `Fx65` keeps the registers above `Vx`. -/
theorem completed_loadRegs_reg_above {x k : Reg} (hk : x < k) : (completed (.loadRegs x) s).reg k = s.reg k :=
  completed_reg s (decide_eq_false (not_le_of_gt hk))

/-- `Fx65` from the same `I` loads what `Fx55` stored, where memory still reads as `Fx55` left it (R194, R195). -/
theorem completed_loadRegs_reg_of_stored {x k : Reg} {u : State} (index : u.i = s.i)
    (mem : ∀ a, u.byteAt a = (completed (.storeRegs x) s).byteAt a) (hk : k ≤ x) :
    (completed (.loadRegs x) u).reg k = s.reg k :=
  calc (completed (.loadRegs x) u).reg k
    _ = u.byteAt (effectiveAddress u k.val) := completed_loadRegs_reg hk
    _ = u.byteAt (effectiveAddress s k.val) := by simp only [effectiveAddress, index]
    _ = (completed (.storeRegs x) s).byteAt (effectiveAddress s k.val) := mem _
    _ = s.reg k := completed_storeRegs_byteAt hk

/-- `Fx55` completes where its last address exists (R194). -/
theorem exec_storeRegs {x : Reg} (h : s.i.toNat + x.val ≤ 0xFFF) :
    exec (.storeRegs x) s = .next (completed (.storeRegs x) s) :=
  exec_of_completes (if_neg (Nat.not_lt_of_le h))

/-- `Fx65` completes where its last address exists (R195). -/
theorem exec_loadRegs {x : Reg} (h : s.i.toNat + x.val ≤ 0xFFF) :
    exec (.loadRegs x) s = .next (completed (.loadRegs x) s) :=
  exec_of_completes (if_neg (Nat.not_lt_of_le h))

/-! ### The statements about the index register and memory -/

/-- Settles O34: outside legacy mode the store leaves `I`, so the load reads the bytes the store left
(`completed_loadRegs_reg_of_stored`). -/
theorem loadGivesBackWhatWasStored : Obligations.LoadGivesBackWhatWasStored := by
  intro x s v legacy range
  have index : (completed (.storeRegs x) s).i = s.i := completed_index s legacy
  have keptLegacy : (completed (.storeRegs x) s).legacy = false := (completed_sameControl s _).legacy.trans legacy
  refine ⟨_, _, exec_storeRegs range, exec_loadRegs (by rwa [index]), ?loaded, ?above, ?index⟩
  case loaded => exact fun _ => completed_loadRegs_reg_of_stored index fun _ => rfl
  case above => exact fun _ => completed_loadRegs_reg_above
  case index => exact Eq.trans (completed_index _ keptLegacy) index

/-- Settles O29: both complete and set `I` alone; above 15 the table gives the digit out of range. -/
theorem indexFromAddressOrDigit : Obligations.IndexFromAddressOrDigit := by
  refine fun s => ⟨fun nnn => ?_, fun x => ⟨fun digit => ?_, fun above => haltsWith_of_fatal (if_pos above)⟩⟩
  · exact setsIndex_of_completes rfl rfl (BitVec.ofNat_toNat 16 nnn).symm fun _ => rfl
  · exact setsIndex_of_completes (if_neg (Nat.not_lt_of_le digit)) rfl rfl fun _ => rfl

/-- Settles O30: the sum goes to `I` alone, and is the sum modulo 0x10000 (`add_wideReg_eq_ofNat`). -/
theorem indexAddWrapsAtSixteenBits : Obligations.IndexAddWrapsAtSixteenBits := fun x s =>
  setsIndex_of_completes rfl rfl (add_wideReg_eq_ofNat s.i x) fun _ => rfl

/-- Settles O31: the three digits are stored at `I` (`completed_ldB_byteAt`); above 0xFFD the table gives the access out
of bounds. -/
theorem decimalDigitsAreStored : Obligations.DecimalDigitsAreStored := by
  refine fun x s => ⟨fun range => ?_, fun past => haltsWith_of_fatal (if_pos (by omega))⟩
  have noFault : fatalCause (.ldB x) s = none := if_neg (by omega)
  exact ⟨_, exec_of_completes noFault, completed_notFatal s _, completed_pc s rfl,
    completed_ldB_byteAt x (k := 0) (by decide), completed_ldB_byteAt x (k := 1) (by decide),
    completed_ldB_byteAt x (k := 2) (by decide), fun _ => completed_byteAt_outside rfl, completed_index s rfl,
    fun _ => completed_reg s rfl⟩

/-- Settles O32: `Vk` is stored at `I + k` (`completed_storeRegs_byteAt`); past the end of memory the table gives the
access out of bounds. -/
theorem registersAreStored : Obligations.RegistersAreStored := by
  refine fun x s => ⟨fun range => ?_, fun past => haltsWith_of_fatal (if_pos past)⟩
  have inside : s.i.toNat + (x.val + 1) < 0x10000 := by omega
  exact ⟨_, exec_storeRegs range, completed_notFatal s _, completed_pc s rfl,
    fun _ => completed_storeRegs_byteAt, fun _ => completed_byteAt_outside rfl,
    State.toNat_advanceIndex (s := s.preIncrement.setBytes _ _) inside, fun _ => completed_reg s rfl⟩

/-- Settles O33: `Vk` is loaded from `I + k` (`completed_loadRegs_reg`); past the end of memory the table gives the
access out of bounds. -/
theorem registersAreLoaded : Obligations.RegistersAreLoaded := by
  refine fun x s => ⟨fun range => ?_, fun past => haltsWith_of_fatal (if_pos past)⟩
  have inside : s.i.toNat + (x.val + 1) < 0x10000 := by omega
  exact ⟨_, exec_loadRegs range, completed_notFatal s _, completed_pc s rfl,
    fun _ => completed_loadRegs_reg, fun _ => completed_loadRegs_reg_above,
    State.toNat_advanceIndex (s := s.preIncrement.setRegs _) inside, completed_byteAt_of_stores_nothing rfl⟩

end Sys2Proof.Machine

/-!
The display (44_display.md): `Dxyn` XORs the display, cell by cell, with the mask of the sprite (R211 to R213), and
reports in VF whether a lit cell lay under a 1 bit of the mask.
-/

namespace Sys2Proof.Machine

/-! ### The mask of a sprite -/

/-- The bit of the sprite of `Dxyn` that falls on the display cell `R`, `C`; a cell the sprite does not cover has 0. -/
def spriteMask (s : State) (x y : Reg) (n R C : Nat) : Bool :=
  decide (rowOffset (s.reg y).toNat R < n ∧ columnOffset (s.reg x).toNat C < 8) &&
    spriteBit (s.byteAt (effectiveAddress s (rowOffset (s.reg y).toNat R))) (columnOffset (s.reg x).toNat C)

variable {s : State} {x y : Reg} {n : Nat}

/-- The mask on the cell where row `r` and column `c` of the sprite land is the sprite's bit there (R212). -/
theorem spriteMask_cell (hn : n ≤ 15) {r c : Nat} (hr : r < n) (hc : c < 8) :
    spriteMask s x y n (((s.reg y).toNat + r) % 32) (((s.reg x).toNat + c) % 64) =
      spriteBit (s.byteAt (effectiveAddress s r)) c := by
  have row : rowOffset (s.reg y).toNat (((s.reg y).toNat + r) % 32) = r :=
    (rowOffset_eq_iff (by omega)).2 (Nat.mod_mod ..)
  have column : columnOffset (s.reg x).toNat (((s.reg x).toNat + c) % 64) = c :=
    (columnOffset_eq_iff (by omega)).2 (Nat.mod_mod ..)
  rw [spriteMask, row, column, decide_eq_true ⟨hr, hc⟩, Bool.true_and]

/-- A cell with a 1 in the mask is one where a 1 bit of the sprite lands. -/
theorem exists_bit_of_spriteMask (hn : n ≤ 15) {R C : Nat} (hR : R < 32) (hC : C < 64)
    (h : spriteMask s x y n R C = true) :
    ∃ r c, r < n ∧ c < 8 ∧ R = ((s.reg y).toNat + r) % 32 ∧ C = ((s.reg x).toNat + c) % 64 ∧
      spriteBit (s.byteAt (effectiveAddress s r)) c = true := by
  obtain ⟨covered, bit⟩ := (Bool.and_eq_true _ _).mp h
  obtain ⟨hr, hc⟩ := of_decide_eq_true covered
  refine ⟨_, _, hr, hc, ?_, ?_, bit⟩
  · rw [← (rowOffset_eq_iff (by omega)).1 rfl, Nat.mod_eq_of_lt hR]
  · rw [← (columnOffset_eq_iff (by omega)).1 rfl, Nat.mod_eq_of_lt hC]

/-- A cell where no row and column of the sprite land has 0 in the mask. -/
theorem spriteMask_of_not_covered (hn : n ≤ 15) {R C : Nat} (hR : R < 32) (hC : C < 64)
    (h : ∀ r c, r < n → c < 8 → R ≠ ((s.reg y).toNat + r) % 32 ∨ C ≠ ((s.reg x).toNat + c) % 64) :
    spriteMask s x y n R C = false := by
  refine Bool.eq_false_iff.2 fun mask => ?_
  obtain ⟨r, c, hr, hc, row, column, -⟩ := exists_bit_of_spriteMask hn hR hC mask
  exact (h r c hr hc).elim (· row) (· column)

/-! ### The sprite drawn -/

theorem drawn_pixel (hn : n ≤ 15) (R C : Nat) :
    (drawn s x y n).1.pixel R C = (s.display.pixel R C ^^ spriteMask s x y n R C) := by
  have length := s.length_bytesAt (effectiveAddress s 0) n
  rw [drawn, blit, blitRows_pixel _ _ _ _ (by omega), spriteMask]
  by_cases covered : rowOffset (s.reg y).toNat R < n ∧ columnOffset (s.reg x).toNat C < 8
  · rw [dif_pos (by rwa [length]), State.getElem_bytesAt, decide_eq_true covered, Bool.true_and]
    rfl
  · rw [dif_neg (by rwa [length]), decide_eq_false covered, Bool.false_and, Bool.xor_false]

/-- Drawing collides exactly when a lit cell lies under a 1 of the mask (R213). -/
theorem drawn_collision (hn : n ≤ 15) :
    (drawn s x y n).2 = true ↔
      ∃ R C, R < 32 ∧ C < 64 ∧ s.display.pixel R C = true ∧ spriteMask s x y n R C = true := by
  have length := s.length_bytesAt (effectiveAddress s 0) n
  rw [drawn, blit, blitRows_collision _ _ _ _ (by omega)]
  simp only [Bool.false_eq_true, false_or, State.getElem_bytesAt, length]
  constructor
  · rintro ⟨r, hr, c, hc, lit, bit⟩
    exact ⟨_, _, Nat.mod_lt _ (by decide), Nat.mod_lt _ (by decide), (Display.pixel_mod ..).trans lit,
      (spriteMask_cell hn hr hc).trans bit⟩
  · rintro ⟨R, C, hR, hC, lit, mask⟩
    obtain ⟨r, c, hr, hc, rfl, rfl, bit⟩ := exists_bit_of_spriteMask hn hR hC mask
    exact ⟨r, hr, c, hc, (Display.pixel_mod ..).symm.trans lit, bit⟩

/-! ### `Dxyn` -/

/-- `Dxyn` completes with 1 to 15 rows inside memory (R215). -/
theorem exec_drw (pos : 0 < n) (hn : n ≤ 15) (range : s.i.toNat + n - 1 ≤ 0xFFF) :
    exec (.drw x y n) s = .next (completed (.drw x y n) s) := by
  refine exec_of_completes ?_
  rw [fatalCause, if_neg (by omega), if_neg (by omega)]

theorem completed_drw_pixel (hn : n ≤ 15) (R C : Nat) :
    (completed (.drw x y n) s).display.pixel R C = (s.display.pixel R C ^^ spriteMask s x y n R C) :=
  drawn_pixel hn R C

theorem flagByte_eq_one_iff (b : Bool) : flagByte b = 1 ↔ b = true := by
  cases b <;> decide

theorem completed_drw_flag_eq_one_iff (hn : n ≤ 15) :
    (completed (.drw x y n) s).reg flagReg = 1 ↔
      ∃ R C, R < 32 ∧ C < 64 ∧ s.display.pixel R C = true ∧ spriteMask s x y n R C = true := by
  rw [completed, State.reg_setReg_same, flagByte_eq_one_iff, drawn_collision hn]

theorem completed_drw_flag_cases :
    (completed (.drw x y n) s).reg flagReg = 0 ∨ (completed (.drw x y n) s).reg flagReg = 1 := by
  obtain ⟨b, flag⟩ := completed_flag s (i := .drw x y n) rfl
  exact flag ▸ flagByte_eq_zero_or_one b

/-- A cell goes from 1 to 0 exactly when it is lit under a 1 of the mask. -/
theorem completed_drw_erases_iff (hn : n ≤ 15) (R C : Nat) :
    (s.display.pixel R C = true ∧ (completed (.drw x y n) s).display.pixel R C = false) ↔
      (s.display.pixel R C = true ∧ spriteMask s x y n R C = true) := by
  rw [completed_drw_pixel hn]
  cases s.display.pixel R C <;> simp

/-- Over a blank display no cell is lit, so `Dxyn` reports no collision. -/
theorem completed_drw_flag_of_blank (hn : n ≤ 15) (blank : ∀ R C, R < 32 → C < 64 → s.display.pixel R C = false) :
    (completed (.drw x y n) s).reg flagReg = 0 := by
  refine completed_drw_flag_cases.resolve_right fun flag => ?_
  obtain ⟨R, C, hR, hC, lit, -⟩ := (completed_drw_flag_eq_one_iff hn).1 flag
  exact Bool.false_ne_true ((blank R C hR hC).symm.trans lit)

/-- A draw whose coordinates are not in VF leaves what the mask is made of: the coordinates, `I` and memory. -/
theorem spriteMask_completed_drw (hx : x ≠ flagReg) (hy : y ≠ flagReg) (R C : Nat) :
    spriteMask (completed (.drw x y n) s) x y n R C = spriteMask s x y n R C := by
  have index : (completed (.drw x y n) s).i = s.i := completed_index s rfl
  have column : (completed (.drw x y n) s).reg x = s.reg x := completed_reg s (decide_eq_false hx)
  have row : (completed (.drw x y n) s).reg y = s.reg y := completed_reg s (decide_eq_false hy)
  have mem := completed_byteAt_of_stores_nothing (s := s) (i := .drw x y n) rfl
  simp only [spriteMask, effectiveAddress, index, column, row, mem]

/-- Over a blank display the first draw leaves the mask, so the second collides wherever the sprite has a 1 bit. -/
theorem completed_drw_twice_flag_of_blank (hx : x ≠ flagReg) (hy : y ≠ flagReg) (hn : n ≤ 15)
    (blank : ∀ R C, R < 32 → C < 64 → s.display.pixel R C = false) :
    (completed (.drw x y n) (completed (.drw x y n) s)).reg flagReg = 1 ↔
      ∃ r c, r < n ∧ c < 8 ∧ spriteBit (s.byteAt (effectiveAddress s r)) c = true := by
  simp only [completed_drw_flag_eq_one_iff hn, spriteMask_completed_drw hx hy]
  constructor
  · rintro ⟨R, C, hR, hC, -, mask⟩
    obtain ⟨r, c, hr, hc, -, -, bit⟩ := exists_bit_of_spriteMask hn hR hC mask
    exact ⟨r, c, hr, hc, bit⟩
  · rintro ⟨r, c, hr, hc, bit⟩
    have hR := Nat.mod_lt ((s.reg y).toNat + r) (y := 32) (by decide)
    have hC := Nat.mod_lt ((s.reg x).toNat + c) (y := 64) (by decide)
    have mask := (spriteMask_cell (x := x) (y := y) hn hr hc).trans bit
    refine ⟨_, _, hR, hC, ?lit, mask⟩
    rw [completed_drw_pixel hn, blank _ _ hR hC, Bool.false_xor, mask]

/-! ### The statements about the display -/

/-- Settles O38: the display is XORed with the mask of the sprite (`completed_drw_pixel`), which is the sprite's bit on a
cell it covers and 0 elsewhere; where the table gives a fatal condition, the instruction halts with it. -/
theorem drawXorsTheSprite : Obligations.DrawXorsTheSprite := by
  refine fun x y n s => ⟨fun height => ?badHeight, fun pos hn past => ?outOfBounds, fun pos hn range => ?draws⟩
  case badHeight => exact haltsWith_of_fatal (if_pos height)
  case outOfBounds =>
    have height : ¬(n = 0 ∨ 16 ≤ n) := by omega
    exact haltsWith_of_fatal ((if_neg height).trans (if_pos past))
  case draws =>
    refine ⟨_, exec_drw pos hn range, completed_notFatal s _, completed_pc s rfl, completed_index s rfl, ?covered,
      ?others, completed_drw_flag_cases, ?collision, fun _ hr => completed_reg s (decide_eq_false hr)⟩
    case covered =>
      intro r c hr hc
      rw [completed_drw_pixel hn, spriteMask_cell hn hr hc]
      rfl
    case others =>
      intro R C hR hC h
      rw [completed_drw_pixel hn, spriteMask_of_not_covered hn hR hC h, Bool.xor_false]
    case collision => simp only [completed_drw_erases_iff hn, completed_drw_flag_eq_one_iff hn]

/-- Settles O39: both draws XOR the display with the same mask (`spriteMask_completed_drw`), and over a blank display
the first draw leaves the mask itself. -/
theorem drawingTwiceErases : Obligations.DrawingTwiceErases := by
  intro x y n s hx hy pos hn range
  have index : (completed (.drw x y n) s).i = s.i := completed_index s rfl
  refine ⟨_, _, exec_drw pos hn range, exec_drw pos hn (by rwa [index]), Display.ext_pixel fun R C _ _ => ?restored,
    fun blank => ⟨completed_drw_flag_of_blank hn blank, completed_drw_twice_flag_of_blank hx hy hn blank⟩⟩
  case restored =>
    rw [completed_drw_pixel hn, completed_drw_pixel hn, spriteMask_completed_drw hx hy, Bool.xor_assoc, Bool.xor_self,
      Bool.xor_false]

/-- Settles O37: the display is left blank and the instruction may write no register. -/
theorem clearBlanksTheDisplay : Obligations.ClearBlanksTheDisplay := fun s =>
  ⟨_, exec_of_completes rfl, completed_notFatal s _, completed_pc s rfl, fun r c _ _ => Display.pixel_blank r c,
    fun _ => completed_reg s rfl⟩

end Sys2Proof.Machine

/-!
The keypad and the timers (45_keypad_timers.md): the level of the key that a skip tests, the timers as an instruction
reads and sets them, and the key wait, which `Fx0A` enters and a pressed key ends.
-/

namespace Sys2Proof.Machine

variable {s : State}

/-! ### The key level of a skip -/

/-- An index in range names the key of that index, by the whole byte (R230, R231). -/
theorem keyLevel_of_lt {x : Reg} (h : (s.reg x).toNat < 16) : keyLevel s x = s.keys[(s.reg x).toNat] := by
  simp only [keyLevel, keyOperand, dif_pos h, Option.any_some, Fin.getElem_fin]

/-! ### The key wait -/

/-- With a key to take, `Fx0A` writes its index within the step (R233). -/
theorem exec_ldVxK_of_pickKey_eq_some {k : Fin 16} (x : Reg) (pick : pickKey s.keys = some k) :
    exec (.ldVxK x) s = .next (s.preIncrement.setReg x (keyByte k)) := by
  simp only [exec, execLdVxK, pick]

/-- With no key to take, `Fx0A` enters the key wait with `Vx` not yet written (R233; 10_state.md R33). -/
theorem exec_ldVxK_of_pickKey_eq_none (x : Reg) (pick : pickKey s.keys = none) :
    exec (.ldVxK x) s = .next { s with pc := s.pc + 2, wait := some x } := by
  simp only [exec, execLdVxK, pick]
  rfl

/-- A key wait that can end is the whole step, whatever the agenda holds (R234, decision D11). -/
theorem step_of_resolveKeyWait_eq_some {t : State} (live : s.run ≠ .faulted) (resolves : resolveKeyWait s = some t) :
    step s = .next t := by
  simp only [step, machineStep, if_neg live, resolves]

/-! ### The statements about the keypad and the timers -/

/-- Settles O27: an index in range completes with a skip on the level of its key (`keyLevel_of_lt`), and the table gives
an index above 15 the fatal condition. -/
theorem skipsOnKey : Obligations.SkipsOnKey := by
  refine fun x s => ⟨fun inRange => ?skips, fun above => ?halts⟩
  case skips =>
    have notAbove : ¬0xF < (s.reg x).toNat := by omega
    have level := keyLevel_of_lt inRange
    exact ⟨setsPc_of_skipIf (if_neg notAbove) (by simp [completed, level]) fun _ => rfl,
      setsPc_of_skipIf_not (if_neg notAbove) (by simp [completed, level]) fun _ => rfl⟩
  case halts => exact ⟨haltsWith_of_fatal (if_pos above), haltsWith_of_fatal (if_pos above)⟩

/-- Settles O40: all three complete; `Fx07` writes `Vx` alone, `Fx15` may write no register and not `ST`, and `Fx18` no
register and not `DT`. -/
theorem timersAreReadAndSet : Obligations.TimersAreReadAndSet := by
  refine fun x s => ⟨setsReg_of_exec rfl, ?setsDelay, ?setsSound⟩
  case setsDelay =>
    exact ⟨_, exec_of_completes rfl, completed_notFatal s _, completed_pc s rfl, rfl, completed_st s (by simp),
      fun _ => completed_reg s rfl⟩
  case setsSound =>
    exact ⟨_, exec_of_completes rfl, completed_notFatal s _, completed_pc s rfl, rfl, completed_dt s (by simp),
      fun _ => completed_reg s rfl⟩

/-- Settles O41: `pickKey` gives a pressed key where there is one and nothing where there is none, and `Fx0A` takes the
key or enters the wait. -/
theorem keyWaitInstruction : Obligations.KeyWaitInstruction := by
  intro x s
  obtain ⟨k, pick, pressed⟩ | ⟨pick, nonePressed⟩ := pickKey_cases s.keys
  · have taken := exec_ldVxK_of_pickKey_eq_some x pick
    exact ⟨fun _ => ⟨k, pressed, setsReg_of_exec taken, _, taken, rfl⟩,
      fun nonePressed => absurd pressed (by simp [nonePressed k])⟩
  · exact ⟨fun ⟨k, pressed⟩ => absurd pressed (by simp [nonePressed k]),
      fun _ => exec_ldVxK_of_pickKey_eq_none x pick⟩

/-- Settles O42: a running machine that waits with a key pressed can end the wait (`resolveKeyWait_cases`), and a wait
that can end is the whole step. -/
theorem pressedKeyEndsTheWait : Obligations.PressedKeyEndsTheWait := by
  rintro x s run wait ⟨k, pressed⟩
  obtain ⟨y, j, -, waitsFor, key, resolves⟩ | ⟨-, nonePressed⟩ := resolveKeyWait_cases s
  · obtain rfl : x = y := Option.some.inj (wait.symm.trans waitsFor)
    exact ⟨j, key, step_of_resolveKeyWait_eq_some (by simp [run]) resolves⟩
  · exact absurd pressed (by simp [nonePressed run x wait k])

end Sys2Proof.Machine

/-!
The fatal conditions, the frame tick and the host (60_exceptions.md): what an enabled frame tick and a run of them
leave, what each operation of the host does in a machine that is not faulted, and that a faulted machine is terminal.
-/

namespace Sys2Proof.Machine

variable {s : State} {rest : List Event}

/-! ### One frame tick -/

/-- An enabled frame tick: the timers, the outputs and the stop request, each from the state on entry (R266). -/
theorem frameTick_of_active (active : s.active = true) :
    frameTick s =
      { s with
        dt := countDown s.dt
        st := countDown s.st
        out := s.out ++ tickOutputs s
        run := if s.stopReq then .stopped else s.run
        stopReq := false } :=
  if_pos active

theorem tickOutputs_eq (s : State) :
    tickOutputs s = if s.st = 0 then [.render s.display] else [.tone, .render s.display] := by
  unfold tickOutputs
  split <;> rfl

/-- A tick gives one tone, and none where `ST` is 0 (R268). -/
theorem count_tone_tickOutputs (s : State) : (tickOutputs s).count .tone = min 1 s.st.toNat := by
  rw [tickOutputs_eq]
  split
  case isTrue silent => simp [silent]
  case isFalse sounding =>
    have pos : 1 ≤ s.st.toNat := by bv_omega
    rw [Nat.min_eq_left pos]
    simp

/-- With a frame tick first on the agenda, the step of an active machine is that tick: no key wait comes before it
(log entry 14). -/
theorem step_eq_frameTick (active : s.active = true) (agenda : s.agenda = .frameTick :: rest) :
    step s = .next (frameTick { s with agenda := rest }) := by
  obtain ⟨run, wait⟩ := s.active_iff.1 active
  exact machineStep_of_agenda s (by simp [run]) (resolveKeyWait_eq_none s (.inr (.inl wait))) agenda

/-! ### A run of frame ticks -/

/-- Frame ticks happen, and none of them stops the machine. -/
structure Ticking (s : State) : Prop where
  active : s.active = true
  noStop : s.stopReq = false

theorem Ticking.tick (h : Ticking s) : Ticking (frameTick s) := by
  obtain ⟨run, wait⟩ := s.active_iff.1 h.active
  rw [frameTick_of_active h.active, h.noStop]
  exact ⟨(State.active_iff _).2 ⟨run, wait⟩, rfl⟩

theorem Ticking.iterate (h : Ticking s) (n : Nat) : Ticking (frameTick^[n] s) :=
  Function.Iterate.rec Ticking h (fun _ => Ticking.tick) n

/-- After `n` ticks each timer is down by `n`, or 0 (R267). -/
theorem Ticking.timers_iterate (h : Ticking s) (n : Nat) :
    (frameTick^[n] s).st.toNat = s.st.toNat - n ∧ (frameTick^[n] s).dt.toNat = s.dt.toNat - n := by
  induction n with
  | zero => exact ⟨rfl, rfl⟩
  | succ n ih =>
    obtain ⟨st, dt⟩ := ih
    rw [Function.iterate_succ_apply', frameTick_of_active (h.iterate n).active]
    simp only [countDown_toNat, st, dt]
    exact ⟨Nat.sub_sub .., Nat.sub_sub ..⟩

/-- `n` ticks give a tone each, until `ST` is 0: tick `n + 1` sounds where `ST` is still above `n` (R268). -/
theorem Ticking.count_tone_iterate (h : Ticking s) (n : Nat) :
    (frameTick^[n] s).out.count .tone = s.out.count .tone + min n s.st.toNat := by
  induction n with
  | zero => simp
  | succ n ih =>
    obtain ⟨st, -⟩ := h.timers_iterate n
    rw [Function.iterate_succ_apply', frameTick_of_active (h.iterate n).active]
    simp only [List.count_append, ih, count_tone_tickOutputs, st]
    omega

/-! ### The host -/

/-- `run()` of a machine that is not faulted leaves it running, whether or not it ran before (R270). -/
theorem hostRun_eq (s : State) (live : s.run ≠ .faulted) : hostRun s = { s with run := .running } := by
  unfold hostRun
  cases run : s.run with
  | stopped => rfl
  | running => simp [← run]
  | faulted => exact absurd run live

/-- `stop()` notes the request where the machine runs, and does nothing elsewhere (R270). -/
theorem hostStop_eq (s : State) : hostStop s = { s with stopReq := s.stopReq || s.run = .running } := by
  unfold hostStop
  split
  case isTrue running => simp [running]
  case isFalse idle => simp [idle]

/-- The host sets the keys of a machine that is not faulted (R271). -/
theorem hostSetKeys_eq (s : State) (keys : Vector Bool 16) (live : s.run ≠ .faulted) :
    hostSetKeys keys s = { s with keys := keys } :=
  if_neg live

/-- A stopped machine takes a program that fits (R272). -/
theorem hostLoad_of_fits {bytes : List Byte} (stopped : s.run = .stopped) (fits : bytes.length ≤ 0xE00) :
    hostLoad bytes s = .next (s.setBytes 0x200 bytes) := by
  simp only [hostLoad, stopped]
  exact if_neg (Nat.not_lt_of_le fits)

/-- A stopped machine halts on a program that does not fit (R272). -/
theorem hostLoad_of_too_large {bytes : List Byte} (stopped : s.run = .stopped) (large : 0xE00 < bytes.length) :
    hostLoad bytes s = .next (s.raise .programTooLarge none none) := by
  simp only [hostLoad, stopped]
  exact if_pos large

/-- With a host operation first on the agenda and no key wait to end, the step is that operation (log entry 14). -/
theorem step_eq_hostStep {op : HostOp} (live : s.run ≠ .faulted) (noKey : resolveKeyWait s = none)
    (agenda : s.agenda = .host op :: rest) : step s = hostStep op { s with agenda := rest } :=
  machineStep_of_agenda s live noKey agenda

/-! ### The statements about fatal conditions, frame ticks and the host -/

/-- Settles O11: where the table gives a condition, `exec` raises it (`exec_of_fatal`), with the record of R252. -/
theorem fatalConditionsFollowTheTable : Obligations.FatalConditionsFollowTheTable :=
  fun i s c hc => (exec_of_fatal hc).trans (raiseIn_eq s i c)

/-- Settles O12: where the table gives no condition, `exec` completes (`exec_of_completes`), and a completed instruction
keeps the run state and the record. -/
theorem instructionsCompleteOtherwise : Obligations.InstructionsCompleteOtherwise :=
  fun i s noFault => ⟨_, exec_of_completes noFault, completed_notFatal s i⟩

/-- Settles O45: after `Fx18` the machine still ticks with `ST` at `Vx`; the rest is about `n` ticks
(`Ticking.timers_iterate`, `Ticking.count_tone_iterate`). -/
theorem soundTimerTonesForItsValue : Obligations.SoundTimerTonesForItsValue := by
  intro x s n run wait noStop
  have ticking : Ticking (completed (.ldSTVx x) s) := ⟨(State.active_iff _).2 ⟨run, wait⟩, noStop⟩
  obtain ⟨st, dt⟩ := ticking.timers_iterate n
  exact ⟨_, exec_of_completes rfl, st, dt, ticking.count_tone_iterate n⟩

/-- Settles O10: in a faulted machine no agent is enabled. -/
theorem faultedMachineIsTerminal : Obligations.FaultedMachineIsTerminal := by
  intro s faulted
  have inactive : ¬s.active = true := by simp [State.active_iff, faulted]
  exact ⟨if_pos faulted, instructionStep_of_not_active inactive,
    resolveKeyWait_eq_none s (.inl (by simp [faulted])), frameTick_of_not_active inactive,
    if_neg (by simp [faulted]), if_neg (by simp [faulted]), fun _ => if_pos faulted,
    fun _ => by simp only [hostLoad, faulted]⟩

/-- Settles O43: the step is an enabled frame tick. -/
theorem frameTickEffect : Obligations.FrameTickEffect := by
  intro s rest run wait agenda
  have active : s.active = true := s.active_iff.2 ⟨run, wait⟩
  refine ⟨_, (step_eq_frameTick active agenda).trans (congrArg _ (frameTick_of_active active)),
    countDown_toNat s.dt, countDown_toNat s.st, congrArg (s.out ++ ·) (tickOutputs_eq s), ?run, rfl⟩
  case run => simp only [run]

/-- Settles O44: a tick emits at most the tone before its render event. -/
theorem renderCarriesTheWholeDisplay : Obligations.RenderCarriesTheWholeDisplay := by
  intro s run wait
  rw [frameTick_of_active (s.active_iff.2 ⟨run, wait⟩)]
  refine ⟨if s.st = 0 then [] else [.tone], (List.append_assoc ..).symm, fun grid => ?onlyTone, rfl⟩
  case onlyTone => split <;> simp

/-- Settles O47: each operation by its own equation, and a step with the operation first on the agenda is that
operation (`step_eq_hostStep`). -/
theorem runAndStopRequests : Obligations.RunAndStopRequests := by
  refine fun s => ⟨fun stopped => ?stopped, fun running => ?running, fun faulted => ?faulted,
    fun live keys => hostSetKeys_eq _ keys live, fun rest enabled => ?steps⟩
  case stopped => exact ⟨if_pos stopped, if_neg (by simp [stopped])⟩
  case running => exact ⟨if_neg (by simp [running]), if_pos running⟩
  case faulted => exact ⟨if_neg (by simp [faulted]), if_neg (by simp [faulted])⟩
  case steps =>
    have live : s.run ≠ .faulted := by
      obtain stopped | ⟨running, -⟩ := enabled
      · simp [stopped]
      · simp [running]
    have noKey : resolveKeyWait s = none :=
      resolveKeyWait_eq_none s (enabled.imp (fun stopped => by simp [stopped]) And.right)
    have performs {op} (agenda : s.agenda = .host op :: rest) := step_eq_hostStep live noKey agenda
    refine ⟨fun agenda => ?run, fun agenda => ?stop, fun keys agenda => ?setKeys, fun bytes => performs⟩
    case run => exact (performs agenda).trans (congrArg _ (hostRun_eq { s with agenda := rest } live))
    case stop => exact (performs agenda).trans (congrArg _ (hostStop_eq { s with agenda := rest }))
    case setKeys => exact (performs agenda).trans (congrArg _ (hostSetKeys_eq { s with agenda := rest } keys live))

/-- Settles O48: a program that fits is written at 0x200 (`State.byteAt_setBytes`); a longer one is a fatal
condition. -/
theorem loadCopiesTheProgram : Obligations.LoadCopiesTheProgram := by
  refine fun bytes s => ⟨fun stopped fits => ?fits, hostLoad_of_too_large, fun running => ?running⟩
  case fits =>
    refine ⟨_, hostLoad_of_fits stopped fits, fun k hk => ?loaded, fun a outside => ?kept, rfl⟩
    case loaded =>
      rw [State.byteAt_setBytes, dif_pos (by omega)]
      simp
    case kept => rw [State.byteAt_setBytes, dif_neg (by omega)]
  case running => simp only [hostLoad, running]

end Sys2Proof.Machine

/-!
The first step after construction (70_reset_and_hazards.md): `run()` starts a stopped machine at the word at its `PC`,
and a loaded program is read back where it was written.
-/

namespace Sys2Proof.Machine

/-- A byte of a list stored from `a` is read back at its own offset (R272). -/
theorem State.byteAt_setBytes_add (s : State) (a : Nat) {bs : List Byte} {k : Nat} (hk : k < bs.length) :
    (s.setBytes a bs).byteAt (a + k) = bs[k] := by
  rw [State.byteAt_setBytes, dif_pos (by omega)]
  simp

/-- After `run()` a stopped machine with nothing on the agenda executes the word at its `PC` (R270, R303). -/
theorem step_hostRun_eq_execWord {s : State} (stopped : s.run = .stopped) (wait : s.wait = none)
    (agenda : s.agenda = []) (pc : s.pc.toNat ≤ 0xFFE) :
    step (hostRun s) =
      execWord (wordOfBytes (s.byteAt s.pc.toNat) (s.byteAt (s.pc.toNat + 1))) (hostRun s) := by
  rw [hostRun_eq s (by simp [stopped])]
  exact step_eq_execWord rfl wait agenda pc

/-- Settles O60: the constructed machine is stopped with `PC` at 0x200, so it takes the program
(`hostLoad_of_fits`), and the word at its `PC` is that of the first two bytes written. -/
theorem programBeginsAtItsFirstWord : Obligations.ProgramBeginsAtItsFirstWord := by
  intro legacy font first second bytes fits
  let t := (State.construct legacy font).setBytes 0x200 (first :: second :: bytes)
  have byte₀ : t.byteAt 0x200 = first := State.byteAt_setBytes_add _ 0x200 (k := 0) (by simp)
  have byte₁ : t.byteAt (0x200 + 1) = second := State.byteAt_setBytes_add _ 0x200 (k := 1) (by simp)
  have pc : t.pc.toNat = 0x200 := rfl
  refine ⟨t, hostLoad_of_fits rfl fits, ?_⟩
  rw [step_hostRun_eq_execWord rfl rfl rfl (by rw [pc]; decide), pc, byte₀, byte₁]

end Sys2Proof.Machine
